-- ==== Sys2Proof/Word.lean ====
section
/-!
DEFINITION. The bit widths of the CORE (spec/00_scope.md R5, R7): bytes, 16-bit words, and the nibble and
12-bit slices of an opcode. Everything is unsigned; the hardware has no sign extension (R7).
-/

namespace Sys2Proof

/-- `REG_WIDTH` = 8 bits: a general register, a timer, a byte of memory (R5). -/
abbrev Byte := BitVec 8

/-- `ADDR_REG_WIDTH` = 16 bits: `I`, `PC`, a stack entry, an opcode (R5, R91). -/
abbrev Word := BitVec 16

/-- "a 4-bit slice of an opcode" (R11): a register index `x` or `y`, or the immediate `n`. -/
abbrev Nibble := BitVec 4

/-- `nnn`, "the low 12 bits of the opcode" (R91). -/
abbrev Imm12 := BitVec 12

end Sys2Proof
end

