-- ==== Sys2Proof/Syntax.lean ====
section
/-!
DEFINITION. The instructions of the CORE: one constructor per row of spec/opcode_table.json, the 34 instructions
and the unknown-opcode no-op (spec/30_encoding.md R93 to R97, R99, R105). Register operands `x`, `y` are the
4-bit indices of `Vx`, `Vy`; `kk`, `nnn`, `n` are the immediates (R91, R101). Bits of an opcode that no dispatch
stage examines and no handler uses (R98) are no part of an instruction (log entry 9).
-/

namespace Sys2Proof

inductive Instr where
  /-- CLS `0__0`: clear display (R140). -/
  | cls
  /-- RET `0__E`: return (R141). -/
  | ret
  /-- JP nnn `1nnn`: jump (R142). -/
  | jp (nnn : Imm12)
  /-- CALL nnn `2nnn`: call (R143). -/
  | call (nnn : Imm12)
  /-- SE Vx,kk `3xkk`: skip if equal (R146). -/
  | seImm (x : Nibble) (kk : Byte)
  /-- SNE Vx,kk `4xkk`: skip if not equal (R147). -/
  | sneImm (x : Nibble) (kk : Byte)
  /-- SE Vx,Vy `5xy_`: skip if equal (R148). -/
  | seReg (x y : Nibble)
  /-- LD Vx,kk `6xkk`: load immediate (R161). -/
  | ldImm (x : Nibble) (kk : Byte)
  /-- ADD Vx,kk `7xkk`: add immediate, no flag (R162). -/
  | addImm (x : Nibble) (kk : Byte)
  /-- LD Vx,Vy `8xy0`: assign (R163). -/
  | ldReg (x y : Nibble)
  /-- OR Vx,Vy `8xy1` (R164). -/
  | orReg (x y : Nibble)
  /-- AND Vx,Vy `8xy2` (R165). -/
  | andReg (x y : Nibble)
  /-- XOR Vx,Vy `8xy3` (R166). -/
  | xorReg (x y : Nibble)
  /-- ADD Vx,Vy `8xy4`: add, carry to `VF` (R167). -/
  | addReg (x y : Nibble)
  /-- SUB Vx,Vy `8xy5`: subtract, strict not-borrow to `VF` (R168). -/
  | sub (x y : Nibble)
  /-- SHR Vx `8x_6`: shift right in place (R170). -/
  | shr (x : Nibble)
  /-- SUBN Vx,Vy `8xy7`: subtract reversed (R169). -/
  | subn (x y : Nibble)
  /-- SHL Vx `8x_E`: shift left in place (R171). -/
  | shl (x : Nibble)
  /-- SNE Vx,Vy `9xy_`: skip if not equal (R149). -/
  | sneReg (x y : Nibble)
  /-- LD I,nnn `Annn`: set index (R173). -/
  | ldI (nnn : Imm12)
  /-- JP V0,nnn `Bnnn`: jump with offset (R144). -/
  | jpV0 (nnn : Imm12)
  /-- RND Vx,kk `Cxkk`: add a masked random byte (R172). -/
  | rnd (x : Nibble) (kk : Byte)
  /-- DRW Vx,Vy,n `Dxyn`: draw a sprite (R190). -/
  | drw (x y n : Nibble)
  /-- SKP Vx `Ex_E`: skip if pressed (R200). -/
  | skp (x : Nibble)
  /-- SKNP Vx `Ex_1`: skip if not pressed (R201). -/
  | sknp (x : Nibble)
  /-- LD Vx,DT `Fx07`: read the delay timer (R210). -/
  | ldVxDt (x : Nibble)
  /-- LD Vx,K `Fx0A`: key-wait (R202). -/
  | ldVxK (x : Nibble)
  /-- LD DT,Vx `Fx15`: set the delay timer (R211). -/
  | ldDtVx (x : Nibble)
  /-- LD ST,Vx `Fx18`: set the sound timer (R212). -/
  | ldStVx (x : Nibble)
  /-- ADD I,Vx `Fx1E`: add to index (R220). -/
  | addI (x : Nibble)
  /-- LD F,Vx `Fx29`: font character address (R221). -/
  | ldF (x : Nibble)
  /-- LD B,Vx `Fx33`: BCD store (R222). -/
  | ldB (x : Nibble)
  /-- LD [I],Vx `Fx55`: register dump (R223). -/
  | ldMemVx (x : Nibble)
  /-- LD Vx,[I] `Fx65`: register load (R224). -/
  | ldVxMem (x : Nibble)
  /-- UNKNOWN: a word no table entry is assigned to, a no-op (R99, R124). The word is kept so that the encoder
  gives it back; no meaning reads it. -/
  | unknown (op : Word)
  deriving DecidableEq, Repr

end Sys2Proof
end

