-- ==== Sys2Proof/WellFormed.lean ====
section
/-!
DEFINITION. Which terms of `Instr` stand for an opcode. Every operand field admits all its values (spec/30_encoding.md
R101: "all 16 values are legal in both, and `x = y` is legal"), so the one thing to check is that the word of
an UNKNOWN instruction is one of the unknown words of R99. The class is written here from R99's own list, apart
from the decoder.
-/

namespace Sys2Proof

/-- R99: "The unknown opcodes are exactly: `op1 = 0x0` with `n` not in {0, E}; `op1 = 0x8` with `n` in {8..D, F};
`op1 = 0xE` with `n` not in {1, E}; `op1 = 0xF` with `kk` not in {07, 0A, 15, 18, 1E, 29, 33, 55, 65}". -/
def isUnknownWord (op : Word) : Bool :=
  let op1 := op.extractLsb' 12 4
  let n := op.extractLsb' 0 4
  let kk := op.extractLsb' 0 8
  (op1 == 0x0#4 && !([0x0#4, 0xE#4].contains n)) ||
  (op1 == 0x8#4 && [0x8#4, 0x9#4, 0xA#4, 0xB#4, 0xC#4, 0xD#4, 0xF#4].contains n) ||
  (op1 == 0xE#4 && !([0x1#4, 0xE#4].contains n)) ||
  (op1 == 0xF#4 && !([0x07#8, 0x0A#8, 0x15#8, 0x18#8, 0x1E#8, 0x29#8, 0x33#8, 0x55#8, 0x65#8].contains kk))

/-- An instruction that some opcode encodes: every constructor with any operands, but an UNKNOWN only with a word
of R99. -/
def Instr.wellFormed : Instr → Bool
  | .cls => true
  | .ret => true
  | .jp _ => true
  | .call _ => true
  | .seImm _ _ => true
  | .sneImm _ _ => true
  | .seReg _ _ => true
  | .ldImm _ _ => true
  | .addImm _ _ => true
  | .ldReg _ _ => true
  | .orReg _ _ => true
  | .andReg _ _ => true
  | .xorReg _ _ => true
  | .addReg _ _ => true
  | .sub _ _ => true
  | .shr _ => true
  | .subn _ _ => true
  | .shl _ => true
  | .sneReg _ _ => true
  | .ldI _ => true
  | .jpV0 _ => true
  | .rnd _ _ => true
  | .drw _ _ _ => true
  | .skp _ => true
  | .sknp _ => true
  | .ldVxDt _ => true
  | .ldVxK _ => true
  | .ldDtVx _ => true
  | .ldStVx _ => true
  | .addI _ => true
  | .ldF _ => true
  | .ldB _ => true
  | .ldMemVx _ => true
  | .ldVxMem _ => true
  | .unknown op => isUnknownWord op

end Sys2Proof
end

