-- ==== Sys2Proof/Decode.lean ====
section
/-!
DEFINITION. The decoder of spec/30_encoding.md R93 to R99, in the form of the function of R105, over one opcode and
over the bytes of an instruction stream; after it the encoder of R106, the opcode table of R104, and the
host's way in, `decodeTableWord`.
-/

namespace Sys2Proof

/-! ### Fields of an opcode (R91) -/

/-- `op1`, bits 15..12: the leading nibble. -/
def op1Of (op : Word) : Nibble := op.extractLsb' 12 4

/-- `x`, bits 11..8: index of `Vx`. -/
def xOf (op : Word) : Nibble := op.extractLsb' 8 4

/-- `y`, bits 7..4: index of `Vy`. -/
def yOf (op : Word) : Nibble := op.extractLsb' 4 4

/-- `n`, bits 3..0: the trailing nibble. -/
def nOf (op : Word) : Nibble := op.extractLsb' 0 4

/-- `kk`, bits 7..0: the trailing byte. -/
def kkOf (op : Word) : Byte := op.extractLsb' 0 8

/-- `nnn`, bits 11..0. -/
def nnnOf (op : Word) : Imm12 := op.extractLsb' 0 12

/-! ### The two dispatch stages -/

/-- Stage 2 of family 0, on the trailing nibble (R94). -/
def decodeFamily0 (op : Word) : Instr :=
  match nOf op with
  | 0x0#4 => .cls
  | 0xE#4 => .ret
  | _ => .unknown op

/-- Stage 2 of family 8, on the trailing nibble (R95). -/
def decodeFamily8 (op : Word) : Instr :=
  match nOf op with
  | 0x0#4 => .ldReg (xOf op) (yOf op)
  | 0x1#4 => .orReg (xOf op) (yOf op)
  | 0x2#4 => .andReg (xOf op) (yOf op)
  | 0x3#4 => .xorReg (xOf op) (yOf op)
  | 0x4#4 => .addReg (xOf op) (yOf op)
  | 0x5#4 => .sub (xOf op) (yOf op)
  | 0x6#4 => .shr (xOf op)
  | 0x7#4 => .subn (xOf op) (yOf op)
  | 0xE#4 => .shl (xOf op)
  | _ => .unknown op

/-- Stage 2 of family E, on the trailing nibble (R96). -/
def decodeFamilyE (op : Word) : Instr :=
  match nOf op with
  | 0xE#4 => .skp (xOf op)
  | 0x1#4 => .sknp (xOf op)
  | _ => .unknown op

/-- Stage 2 of family F, on the trailing byte (R97). -/
def decodeFamilyF (op : Word) : Instr :=
  match kkOf op with
  | 0x07#8 => .ldVxDt (xOf op)
  | 0x0A#8 => .ldVxK (xOf op)
  | 0x15#8 => .ldDtVx (xOf op)
  | 0x18#8 => .ldStVx (xOf op)
  | 0x1E#8 => .addI (xOf op)
  | 0x29#8 => .ldF (xOf op)
  | 0x33#8 => .ldB (xOf op)
  | 0x55#8 => .ldMemVx (xOf op)
  | 0x65#8 => .ldVxMem (xOf op)
  | _ => .unknown op

/-- Stage 1, on the leading nibble (R93, R105). Total: every word decodes (R99). The last arm is the leading
nibble `0xF`, the one value the arms before it leave. -/
def decode (op : Word) : Instr :=
  match op1Of op with
  | 0x0#4 => decodeFamily0 op
  | 0x1#4 => .jp (nnnOf op)
  | 0x2#4 => .call (nnnOf op)
  | 0x3#4 => .seImm (xOf op) (kkOf op)
  | 0x4#4 => .sneImm (xOf op) (kkOf op)
  | 0x5#4 => .seReg (xOf op) (yOf op)
  | 0x6#4 => .ldImm (xOf op) (kkOf op)
  | 0x7#4 => .addImm (xOf op) (kkOf op)
  | 0x8#4 => decodeFamily8 op
  | 0x9#4 => .sneReg (xOf op) (yOf op)
  | 0xA#4 => .ldI (nnnOf op)
  | 0xB#4 => .jpV0 (nnnOf op)
  | 0xC#4 => .rnd (xOf op) (kkOf op)
  | 0xD#4 => .drw (xOf op) (yOf op) (nOf op)
  | 0xE#4 => decodeFamilyE op
  | _ => decodeFamilyF op

/-! ### Instructions as bytes -/

/-- The opcode of two consecutive bytes, the first one high: "big-endian assembled from the two bytes" (R67). -/
def opcodeOfBytes (hi lo : Byte) : Word := hi ++ lo

/-- The two bytes of an opcode in the order they are stored, high byte first (R67, R91). -/
def bytesOfOpcode (op : Word) : List Byte := [op.extractLsb' 8 8, op.extractLsb' 0 8]

/-- Why a byte string holds no instruction: the one reason there is, since every 16-bit word decodes (R99). -/
inductive DecodeError where
  /-- Fewer than the two bytes of an instruction (R91). -/
  | truncated
  deriving DecidableEq, Repr

/-- Decode the instruction at the head of a byte stream and give back the rest (R91: one length, two bytes). -/
def decodeBytes : List Byte → Except DecodeError (Instr × List Byte)
  | hi :: lo :: rest => .ok (decode (opcodeOfBytes hi lo), rest)
  | [_] => .error .truncated
  | [] => .error .truncated

/-! ### The encoder (R106) -/

/-- The word of an instruction: its `canonical` word with each operand in its field (R106); ignored bits as the
assembler sets them (R98). -/
def encode : Instr → Word
  | .cls => 0x00E0#16
  | .ret => 0x00EE#16
  | .jp nnn => 0x1#4 ++ nnn
  | .call nnn => 0x2#4 ++ nnn
  | .seImm x kk => 0x3#4 ++ x ++ kk
  | .sneImm x kk => 0x4#4 ++ x ++ kk
  | .seReg x y => 0x5#4 ++ x ++ y ++ 0x0#4
  | .ldImm x kk => 0x6#4 ++ x ++ kk
  | .addImm x kk => 0x7#4 ++ x ++ kk
  | .ldReg x y => 0x8#4 ++ x ++ y ++ 0x0#4
  | .orReg x y => 0x8#4 ++ x ++ y ++ 0x1#4
  | .andReg x y => 0x8#4 ++ x ++ y ++ 0x2#4
  | .xorReg x y => 0x8#4 ++ x ++ y ++ 0x3#4
  | .addReg x y => 0x8#4 ++ x ++ y ++ 0x4#4
  | .sub x y => 0x8#4 ++ x ++ y ++ 0x5#4
  | .shr x => 0x8#4 ++ x ++ 0x0#4 ++ 0x6#4
  | .subn x y => 0x8#4 ++ x ++ y ++ 0x7#4
  | .shl x => 0x8#4 ++ x ++ 0x0#4 ++ 0xE#4
  | .sneReg x y => 0x9#4 ++ x ++ y ++ 0x0#4
  | .ldI nnn => 0xA#4 ++ nnn
  | .jpV0 nnn => 0xB#4 ++ nnn
  | .rnd x kk => 0xC#4 ++ x ++ kk
  | .drw x y n => 0xD#4 ++ x ++ y ++ n
  | .skp x => 0xE#4 ++ x ++ 0x9E#8
  | .sknp x => 0xE#4 ++ x ++ 0xA1#8
  | .ldVxDt x => 0xF#4 ++ x ++ 0x07#8
  | .ldVxK x => 0xF#4 ++ x ++ 0x0A#8
  | .ldDtVx x => 0xF#4 ++ x ++ 0x15#8
  | .ldStVx x => 0xF#4 ++ x ++ 0x18#8
  | .addI x => 0xF#4 ++ x ++ 0x1E#8
  | .ldF x => 0xF#4 ++ x ++ 0x29#8
  | .ldB x => 0xF#4 ++ x ++ 0x33#8
  | .ldMemVx x => 0xF#4 ++ x ++ 0x55#8
  | .ldVxMem x => 0xF#4 ++ x ++ 0x65#8
  | .unknown op => op

/-- The bytes of an instruction as a program image holds them, high byte first (R67). -/
def encodeBytes (i : Instr) : List Byte := bytesOfOpcode (encode i)

/-! ### The opcode table (R104) -/

/-- A row of spec/opcode_table.json: `mask` has a 1 exactly in the bits a dispatch stage examines (R104). -/
structure OpcodeRow where
  mnemonic : String
  mask : Word
  pattern : Word
  deriving DecidableEq, Repr

/-- A word decodes to the first row with `(w & mask) == match` (R104). -/
def OpcodeRow.covers (r : OpcodeRow) (op : Word) : Bool := op &&& r.mask == r.pattern

/-- The rows whose leading nibble alone selects the handler (R93). -/
def stage1Rows : List OpcodeRow :=
  [⟨"JP_nnn", 0xF000, 0x1000⟩, ⟨"CALL_nnn", 0xF000, 0x2000⟩, ⟨"SE_Vx_kk", 0xF000, 0x3000⟩,
   ⟨"SNE_Vx_kk", 0xF000, 0x4000⟩, ⟨"SE_Vx_Vy", 0xF000, 0x5000⟩, ⟨"LD_Vx_kk", 0xF000, 0x6000⟩,
   ⟨"ADD_Vx_kk", 0xF000, 0x7000⟩, ⟨"SNE_Vx_Vy", 0xF000, 0x9000⟩, ⟨"LD_I_nnn", 0xF000, 0xA000⟩,
   ⟨"JP_V0_nnn", 0xF000, 0xB000⟩, ⟨"RND_Vx_kk", 0xF000, 0xC000⟩, ⟨"DRW_Vx_Vy_n", 0xF000, 0xD000⟩]

/-- The rows of families 0 and E (R94, R96). -/
def family0ERows : List OpcodeRow :=
  [⟨"CLS", 0xF00F, 0x0000⟩, ⟨"RET", 0xF00F, 0x000E⟩, ⟨"SKP_Vx", 0xF00F, 0xE00E⟩, ⟨"SKNP_Vx", 0xF00F, 0xE001⟩]

/-- The rows of family 8 (R95). -/
def family8Rows : List OpcodeRow :=
  [⟨"LD_Vx_Vy", 0xF00F, 0x8000⟩, ⟨"OR_Vx_Vy", 0xF00F, 0x8001⟩, ⟨"AND_Vx_Vy", 0xF00F, 0x8002⟩,
   ⟨"XOR_Vx_Vy", 0xF00F, 0x8003⟩, ⟨"ADD_Vx_Vy", 0xF00F, 0x8004⟩, ⟨"SUB_Vx_Vy", 0xF00F, 0x8005⟩,
   ⟨"SHR_Vx", 0xF00F, 0x8006⟩, ⟨"SUBN_Vx_Vy", 0xF00F, 0x8007⟩, ⟨"SHL_Vx", 0xF00F, 0x800E⟩]

/-- The rows of family F (R97). -/
def familyFRows : List OpcodeRow :=
  [⟨"LD_Vx_DT", 0xF0FF, 0xF007⟩, ⟨"LD_Vx_K", 0xF0FF, 0xF00A⟩, ⟨"LD_DT_Vx", 0xF0FF, 0xF015⟩,
   ⟨"LD_ST_Vx", 0xF0FF, 0xF018⟩, ⟨"ADD_I_Vx", 0xF0FF, 0xF01E⟩, ⟨"LD_F_Vx", 0xF0FF, 0xF029⟩,
   ⟨"LD_B_Vx", 0xF0FF, 0xF033⟩, ⟨"LD__I__Vx", 0xF0FF, 0xF055⟩, ⟨"LD_Vx__I", 0xF0FF, 0xF065⟩]

/-- The 34 instruction rows, "pairwise disjoint, so their order does not matter" (R104). -/
def instructionRows : List OpcodeRow := stage1Rows ++ family0ERows ++ family8Rows ++ familyFRows

/-- The last row, the catch-all (R104). -/
def unknownRow : OpcodeRow := ⟨"UNKNOWN", 0x0000, 0x0000⟩

/-- spec/opcode_table.json: the instruction rows, then the catch-all "must be last" (R104). -/
def opcodeTable : List OpcodeRow := instructionRows ++ [unknownRow]

/-- The mnemonic of the table's row an instruction stands for. -/
def Instr.mnemonic : Instr → String
  | .cls => "CLS"
  | .ret => "RET"
  | .jp _ => "JP_nnn"
  | .call _ => "CALL_nnn"
  | .seImm _ _ => "SE_Vx_kk"
  | .sneImm _ _ => "SNE_Vx_kk"
  | .seReg _ _ => "SE_Vx_Vy"
  | .ldImm _ _ => "LD_Vx_kk"
  | .addImm _ _ => "ADD_Vx_kk"
  | .ldReg _ _ => "LD_Vx_Vy"
  | .orReg _ _ => "OR_Vx_Vy"
  | .andReg _ _ => "AND_Vx_Vy"
  | .xorReg _ _ => "XOR_Vx_Vy"
  | .addReg _ _ => "ADD_Vx_Vy"
  | .sub _ _ => "SUB_Vx_Vy"
  | .shr _ => "SHR_Vx"
  | .subn _ _ => "SUBN_Vx_Vy"
  | .shl _ => "SHL_Vx"
  | .sneReg _ _ => "SNE_Vx_Vy"
  | .ldI _ => "LD_I_nnn"
  | .jpV0 _ => "JP_V0_nnn"
  | .rnd _ _ => "RND_Vx_kk"
  | .drw _ _ _ => "DRW_Vx_Vy_n"
  | .skp _ => "SKP_Vx"
  | .sknp _ => "SKNP_Vx"
  | .ldVxDt _ => "LD_Vx_DT"
  | .ldVxK _ => "LD_Vx_K"
  | .ldDtVx _ => "LD_DT_Vx"
  | .ldStVx _ => "LD_ST_Vx"
  | .addI _ => "ADD_I_Vx"
  | .ldF _ => "LD_F_Vx"
  | .ldB _ => "LD_B_Vx"
  | .ldMemVx _ => "LD__I__Vx"
  | .ldVxMem _ => "LD_Vx__I"
  | .unknown _ => "UNKNOWN"

/-! ### The host's numbering of an instruction's bits -/

/-- The 16-bit word of a table row whose bits 0..nbits-1 are `w`; the bits above `nbits` are 0. The CORE has one
word per instruction (R91), so the table's numbering is the opcode's own. -/
def tableWord (nbits w : Nat) : Word := BitVec.ofNat 16 (w % 2 ^ nbits)

/-- What the decoder reads from that instruction, laid out as the hardware stores it, high byte first (R67). -/
def decodeTableWord (nbits w : Nat) : Option Instr :=
  match decodeBytes (bytesOfOpcode (tableWord nbits w)) with
  | .ok (i, _) => some i
  | .error _ => none

end Sys2Proof
end

