-- ==== Sys2Proof/Config.lean ====
section
/-!
DEFINITION. The implementation parameters of spec/00_scope.md R5, each with the value this hardware takes, and
the one free value of the spec, the random byte of RND.
-/

namespace Sys2Proof.Config

/-- `MEM_SIZE`: bytes of memory, addresses `0x000`..`0xFFF` (R5). -/
abbrev memSize : Nat := 4096

/-- `GLYPH_BASE`, the source's `FONT_BASE`: first byte of the glyph region (R5, R221). -/
abbrev glyphBase : Nat := 0x050

/-- `GLYPH_END`: last byte of the glyph region (R5). -/
abbrev glyphEnd : Nat := 0x09F

/-- `GLYPH_HEIGHT`: bytes of one glyph sprite (R5). -/
abbrev glyphHeight : Nat := 5

/-- `PROG_BASE`: where LOAD puts a program and where `PC` starts (R5). -/
abbrev progBase : Nat := 0x200

/-- `PROG_MAX`: the longest program image in bytes, `4096 - 0x200` (R5). -/
abbrev progMax : Nat := 3584

/-- `FB_W`: framebuffer columns (R5). -/
abbrev fbW : Nat := 64

/-- `FB_H`: framebuffer rows (R5). -/
abbrev fbH : Nat := 32

@[simp] theorem memSize_eq : memSize = 4096 := rfl
@[simp] theorem glyphBase_eq : glyphBase = 0x050 := rfl
@[simp] theorem glyphEnd_eq : glyphEnd = 0x09F := rfl
@[simp] theorem glyphHeight_eq : glyphHeight = 5 := rfl
@[simp] theorem progBase_eq : progBase = 0x200 := rfl
@[simp] theorem progMax_eq : progMax = 3584 := rfl
@[simp] theorem fbW_eq : fbW = 64 := rfl
@[simp] theorem fbH_eq : fbH = 32 := rfl

/-- FREE VALUE: the byte that the `k`-th execution of RND draws (R36, R247: "any of the 256 values", "under no
law"). It has no body, so no proof can use a value of it. Mark: DESIGN CHOICE for the form only, safe except where
log entry 3 says (two runs compared from the same `draws`). -/
opaque randomByte : Nat → Byte

end Sys2Proof.Config
end

