-- ==== Sys2Proof/Machine/State.lean ====
section
/-!
DEFINITION. The state of the CORE, spec/10_state.md R20: "the complete state of the CORE is the following and nothing
else", with the reset values of R38; the fatal conditions of spec/60_exceptions.md R260.
-/

namespace Sys2Proof.Machine

/-- The fatal conditions that halt the CORE (60_exceptions.md R260). They are what the `halt` latch holds and what
CYCLE reports. A condition is TAKEN: the step that raises one answers a NEXT state with the latch set (R269, R270),
so no step of this model ends in `Outcome.fault` (log entry 1; safe: nothing the spec describes is left out). -/
inductive Fault where
  /-- Raised by CALL nnn with `SP = 16` (R261). Safe: the state left behind is the spec's (R270). -/
  | stackOverflow
  /-- Raised by RET with `SP = 0` (R262). Safe: the state left behind is the spec's (R270). -/
  | stackUnderflow
  /-- Raised by the fetch with `PC >= 4095`, and by DRW, LD B,Vx, LD [I],Vx, LD Vx,[I] with a byte of their range
  at 4096 or above (R263). Safe: the state left behind is the spec's (R270). -/
  | memoryAccessError
  deriving DecidableEq, Repr

/-- Why the model gives an instruction no meaning. -/
inductive Refusal where
  /-- Answered by an arm of `exec` whose instruction has no meaning yet. No arm does: every instruction of the
  table has its meaning. Safe. -/
  | notModelled (mnemonic : String)
  deriving DecidableEq, Repr

/-- The 4096 bytes of `mem` (R33) as the bytes that differ from their reset contents: (address, byte) pairs in
rising order of address (`Memory.wf`). -/
abbrev Memory := List Host.Cell

/-- The 64 x 32 grid, row-major, `fb[y*64 + x]`; `true` is a pixel that is on (R31, R32). -/
abbrev Framebuffer := Vector Bool 2048

/-- The complete state (R20). Every field but `draws` is the spec's, under the spec's name. -/
structure State where
  /-- The 4096 bytes of memory (R33). -/
  mem : Memory
  /-- `V0`..`VF`; `VF` is also the flag register (R21, R22). -/
  V : Vector Byte 16
  /-- The index register, not range-checked by itself (R24). -/
  I : Word
  /-- The address of the next instruction; any value, odd or even (R25). -/
  PC : Word
  /-- The 16 return addresses, a memory of its own (R27). -/
  stack : Vector Word 16
  /-- The number of return addresses on the stack, 0..16 (R28; log entry 7). -/
  SP : Fin 17
  /-- The delay timer (R29). -/
  DT : Byte
  /-- The sound timer (R29). -/
  ST : Byte
  /-- `key[k]`: whether key `k` is pressed (R30). -/
  key : Vector Bool 16
  /-- The framebuffer (R31). -/
  fb : Framebuffer
  /-- The latch that records the fatal condition that stopped the CORE (R34). -/
  halt : Option Fault
  /-- THE MODEL'S OWN: how many random bytes have been drawn; it picks the next free value (R36; log entry 3). -/
  draws : Nat
  deriving DecidableEq, Repr

/-- The state after RESET (R38, 70_reset_and_hazards.md R300): memory at its reset contents, which is the empty list,
`PC = 0x200`, keys released, everything else zero; `halt` is `None`. `draws` is the model's own (log entry 3). -/
def State.reset : State where
  mem := []
  V := Vector.replicate 16 0
  I := 0
  PC := 0x200
  stack := Vector.replicate 16 0
  SP := 0
  DT := 0
  ST := 0
  key := Vector.replicate 16 false
  fb := Vector.replicate 2048 false
  halt := none
  draws := 0

end Sys2Proof.Machine
end

