-- ==== Sys2Proof/Machine/Ops.lean ====
section
/-!
DEFINITION. The named operations over memory, registers, the program counter, the stack and the random input
(spec/00_scope.md R9, spec/20_memory.md R60 to R80); taking a fatal condition as one shared operation
(spec/60_exceptions.md R269, R270); and the fetch (spec/40_engine_and_dispatch.md R121).
-/

namespace Sys2Proof.Machine

/-- What a handler answers. -/
abbrev StepOutcome := Host.Outcome State Fault Refusal

/-! ### Memory -/

/-- `GLYPH_ROM[0..79]`, the glyphs of the digits 0..F, 5 bytes each (20_memory.md R62). UNVERIFIED: the source does not
list the bytes, they are the spec's own decision D15 (log entry 11). -/
def glyphRom : List Byte :=
  [0xF0, 0x90, 0x90, 0x90, 0xF0] ++ [0x20, 0x60, 0x20, 0x20, 0x70] ++
  [0xF0, 0x10, 0xF0, 0x80, 0xF0] ++ [0xF0, 0x10, 0xF0, 0x10, 0xF0] ++
  [0x90, 0x90, 0xF0, 0x10, 0x10] ++ [0xF0, 0x80, 0xF0, 0x10, 0xF0] ++
  [0xF0, 0x80, 0xF0, 0x90, 0xF0] ++ [0xF0, 0x10, 0x20, 0x40, 0x40] ++
  [0xF0, 0x90, 0xF0, 0x90, 0xF0] ++ [0xF0, 0x90, 0xF0, 0x10, 0xF0] ++
  [0xF0, 0x90, 0xF0, 0x90, 0x90] ++ [0xE0, 0x90, 0xE0, 0x90, 0xE0] ++
  [0xF0, 0x80, 0x80, 0x80, 0xF0] ++ [0xE0, 0x90, 0x90, 0x90, 0xE0] ++
  [0xF0, 0x80, 0xF0, 0x80, 0xF0] ++ [0xF0, 0x80, 0xF0, 0x80, 0x80]

/-- What an address that memory does not list reads as: the reset contents, `GLYPH_ROM` in `0x050`..`0x09F` and zero
elsewhere (R38, R61). -/
def resetByte (a : Nat) : Byte :=
  if Config.glyphBase ≤ a ∧ a ≤ Config.glyphEnd then glyphRom.getD (a - Config.glyphBase) 0 else 0

/-- `MemRead(a, 1)` (R66). The spec defines it for `a < 4096` only; every meaning checks its range first, so the
answer at a higher `a` is used nowhere (log entry 8). -/
def Memory.read : Memory → Nat → Byte
  | [], a => resetByte a
  | (k, b) :: m, a => if k = a then b else Memory.read m a

/-- `MemWrite(a, 1, v)` (R66), keeping the canonical form: writing what an unlisted address reads as removes the
entry. -/
def Memory.write : Memory → Nat → Byte → Memory
  | [], a, v => if v = resetByte a then [] else [(a, v)]
  | (k, b) :: m, a, v =>
    if k < a then (k, b) :: Memory.write m a v
    else if k = a then (if v = resetByte a then m else (a, v) :: m)
    else (if v = resetByte a then (k, b) :: m else (a, v) :: (k, b) :: m)

/-- `MemWrite` of consecutive bytes in ascending address order (R68, R79). -/
def Memory.writeBytes : Memory → Nat → List Byte → Memory
  | m, _, [] => m
  | m, a, v :: vs => Memory.writeBytes (Memory.write m a v) (a + 1) vs

/-- The canonical form from address `lo` up: addresses rise strictly from `lo`, stay below 4096, and no entry
holds what its address reads as when unlisted. -/
def Memory.wfFrom : Nat → Memory → Bool
  | _, [] => true
  | lo, (k, b) :: m => decide (lo ≤ k) && decide (k < Config.memSize) && decide (b ≠ resetByte k) && Memory.wfFrom (k + 1) m

/-- The canonical form of memory: equal memories are equal lists. -/
def Memory.wf (m : Memory) : Bool := Memory.wfFrom 0 m

/-- The byte of memory at `a` in a state. -/
def State.byteAt (s : State) (a : Nat) : Byte := s.mem.read a

/-- `CheckRange(a, n)` (00_scope.md R9, 20_memory.md R65), true when it raises nothing: `n = 0`, or the last address
`a + n - 1` is below 4096. Addresses are mathematical integers: no wrap at 16 bits, no truncation to 12. -/
def inRange (a n : Nat) : Bool := n == 0 || decide (a + n - 1 < Config.memSize)

/-! ### Registers -/

/-- `V[x]` (R9). -/
def State.getV (s : State) (x : Nibble) : Byte := s.V[x.toNat]'x.isLt

/-- `V[x] <- v` (R9). -/
def State.setV (s : State) (x : Nibble) (v : Byte) : State := { s with V := s.V.set x.toNat v x.isLt }

/-- `V0`..`Vx <- v0`..: every register from `V0` to `Vx` takes the value `f` gives its index, the registers above keep
theirs (the form of the register load, R224). -/
def State.setV0Through (s : State) (x : Nibble) (f : Nat → Byte) : State :=
  { s with V := Vector.ofFn fun k : Fin 16 => if k.val ≤ x.toNat then f k.val else s.V[k.val] }

/-- The values of `V0`..`Vx`, in order (the form of the register dump, R223). -/
def State.v0Through (s : State) (x : Nibble) : List Byte := s.V.toList.take (x.toNat + 1)

/-- `I <- v`. -/
def State.setI (s : State) (v : Word) : State := { s with I := v }

/-- `pc <- t`. -/
def State.setPC (s : State) (t : Word) : State := { s with PC := t }

/-- `pc <- pc + 2`: the engine's advance (R122) and the further advance of a skip (R145). PC arithmetic is modulo 65536
(R26, D17). -/
def State.advance (s : State) : State := s.setPC (s.PC + 2)

/-- `pc <- pc - 2`: the rewind of the key-wait (R202). -/
def State.rewind (s : State) : State := s.setPC (s.PC - 2)

/-- Store consecutive bytes from address `a` on. -/
def State.storeBytes (s : State) (a : Nat) (vs : List Byte) : State := { s with mem := s.mem.writeBytes a vs }

/-! ### The call stack -/

/-- `stack[SP] <- pc; SP <- SP + 1` for a stack that is not full (R143). -/
def State.push (s : State) (h : s.SP.val < 16) : State :=
  { s with stack := s.stack.set s.SP.val s.PC h, SP := ⟨s.SP.val + 1, by omega⟩ }

/-- `SP <- SP - 1; pc <- stack[SP]` for a stack that is not empty; the entry keeps its value (R141, R27). -/
def State.pop (s : State) (h : 0 < s.SP.val) : State :=
  { s with SP := ⟨s.SP.val - 1, by omega⟩, PC := s.stack[s.SP.val - 1]'(by have := s.SP.isLt; omega) }

/-! ### The random input -/

/-- The byte that the next `draw8()` supplies: a free value (R36, R247; log entry 3). -/
def State.nextRandom (s : State) : Byte := Config.randomByte s.draws

/-- One `draw8()` is consumed. -/
def State.consumeDraw (s : State) : State := { s with draws := s.draws + 1 }

/-! ### Taking a fatal condition -/

/-- `raise c` (R9, R269, R270): the handler is abandoned with no state written by it, the halt latch is set to `c`, and
`PC` stays as the engine left it (`A + 2` in a handler, `A` in the fetch). `s` is the state the handler started
from. There is no return from a fatal condition (R271); only RESET clears the latch. -/
def raise (c : Fault) (s : State) : StepOutcome := .next { s with halt := some c }

/-- CYCLE while the latch is set: no state changes (R128; the result it reports is `cycleReply`, HostOps.lean). -/
def haltedCycle (s : State) : StepOutcome := .next s

/-! ### The fetch -/

/-- The opcode at `PC`, big-endian, or nothing when `PC + 1 >= 4096` (R67, R121). -/
def fetchWord (s : State) : Option Word :=
  if s.PC.toNat + 1 < Config.memSize then
    some (opcodeOfBytes (s.byteAt s.PC.toNat) (s.byteAt (s.PC.toNat + 1)))
  else none

/-- Put the two bytes of an opcode where the next fetch reads them, and make sure there is a next fetch: a set latch is
cleared, and a `PC` that no fetch can use is moved to `0x200` (log entry 6). -/
def placeAtFetch (s : State) (op : Word) : State :=
  let pc := if s.PC.toNat + 1 < Config.memSize then s.PC else BitVec.ofNat 16 Config.progBase
  { s with mem := s.mem.writeBytes pc.toNat (bytesOfOpcode op), PC := pc, halt := none }

end Sys2Proof.Machine
end

