-- ==== Sys2Proof/Machine/Flags.lean ====
section
/-!
DEFINITION. Every flag value an instruction writes to `VF`, spec/10_state.md R22, and the write itself. `VF` is the
only flag the hardware has; which value is written when is each instruction's rule (spec/42_alu.md R174).
-/

namespace Sys2Proof.Machine

/-- The index of the flag register, `VF` = `V[15]` (R22). -/
def flagReg : Nibble := 0xF

/-- A flag as a register value: 1 or 0. -/
def flagByte (b : Bool) : Byte := if b then 1 else 0

/-- The carry of an 8-bit addition: `sum > 255`, the sum taken at 9 bits or more (R167). -/
def carryOf (a b : Byte) : Bool := decide (255 < a.toNat + b.toNat)

/-- The strict not-borrow of `a - b`: 1 exactly when `a > b`, so 0 for equal operands (R168, R169, R175). -/
def notBorrowOf (a b : Byte) : Bool := decide (b.toNat < a.toNat)

/-- The bit a right shift drops, `v & 1` (R170). -/
def shiftOutLow (v : Byte) : Bool := v.getLsbD 0

/-- The bit a left shift drops, `(v & 0x80) >> 7` (R171). -/
def shiftOutHigh (v : Byte) : Bool := v.getLsbD 7

/-- `V[15] <- 1 if b else 0`. -/
def State.setFlag (s : State) (b : Bool) : State := s.setV flagReg (flagByte b)

end Sys2Proof.Machine
end

