-- ==== Sys2Proof/Machine/Operands.lean ====
section
/-!
DEFINITION. The operand forms of spec/30_encoding.md R101: general registers `Vx`, `Vy`; the unsigned immediates `kk`, `n`
and `nnn`; base `I` plus a constant offset; and the forms an instruction derives from a register value, the key
index (spec/44_keypad.md R203), the glyph address (spec/46_memory_bcd_index.md R221), the decimal digits (R222) and
the sprite origin (spec/43_draw.md R192).
-/

namespace Sys2Proof.Machine

/-- `nnn` zero-extended to 16 bits: an address for `PC` or `I` (R101). -/
def addrOf (nnn : Imm12) : Word := nnn.setWidth 16

/-- A register value zero-extended to 16 bits: an addend of `PC` or `I` (R101, R220). -/
def wideOf (v : Byte) : Word := v.setWidth 16

/-- The base address of a memory operand: the mathematical value of `I`, not reduced (R65, R80). -/
def State.baseAddr (s : State) : Nat := s.I.toNat

/-- The keypad entry a register names: the low four bits of its value (R203). UNVERIFIED for values above 15: the
spec's own decision D12 (log entry 16). -/
def keyIndexOf (v : Byte) : Nibble := v.extractLsb' 0 4

/-- Whether key `k` is pressed (R30). -/
def State.keyDown (s : State) (k : Nibble) : Bool := s.key[k.toNat]'k.isLt

/-- The first pressed key of an ascending scan over 0..15 (R202). UNVERIFIED when several are pressed: the spec's own
decision D13 (log entry 17). -/
def State.lowestKey (s : State) : Option Nat := s.key.toList.findIdx? fun pressed => pressed

/-- `0x050 + 5 * Vx`, the whole of `Vx`, no mask (R221). -/
def glyphAddr (v : Byte) : Word := BitVec.ofNat 16 (Config.glyphBase + Config.glyphHeight * v.toNat)

/-- The decimal digits of a byte, hundreds, tens, ones, each a whole byte (R222). -/
def bcdDigits (v : Byte) : List Byte :=
  [BitVec.ofNat 8 (v.toNat / 100), BitVec.ofNat 8 (v.toNat / 10 % 10), BitVec.ofNat 8 (v.toNat % 10)]

/-- The column of the sprite's left edge, `Vx mod 64` (R192). -/
def originX (v : Byte) : Nat := v.toNat % Config.fbW

/-- The row of the sprite's top edge, `Vy mod 32` (R192). -/
def originY (v : Byte) : Nat := v.toNat % Config.fbH

end Sys2Proof.Machine
end

