-- ==== Sys2Proof/Machine/Alu.lean ====
section
/-!
DEFINITION. The arithmetic and logic instructions, spec/42_alu.md R160 to R175. The statements of a flag-writing
instruction run in the order the rule writes them, each on the state the one before left (R174): the flag write
comes before the result write, and SUB, SUBN, SHR, SHL read `Vx` and `Vy` after it. UNVERIFIED where `x` or `y` is
`0xF`: the spec's own decision D6 (log entry 13). All results wrap modulo 256 and nothing traps (R160).
-/

namespace Sys2Proof.Machine

/-- LD Vx,kk (R161). -/
def execLdImm (x : Nibble) (kk : Byte) (s : State) : StepOutcome := .next (s.setV x kk)

/-- ADD Vx,kk (R162): `VF` is not written, even on overflow. -/
def execAddImm (x : Nibble) (kk : Byte) (s : State) : StepOutcome := .next (s.setV x (s.getV x + kk))

/-- LD Vx,Vy (R163). -/
def execLdReg (x y : Nibble) (s : State) : StepOutcome := .next (s.setV x (s.getV y))

/-- OR Vx,Vy (R164). -/
def execOrReg (x y : Nibble) (s : State) : StepOutcome := .next (s.setV x (s.getV x ||| s.getV y))

/-- AND Vx,Vy (R165). -/
def execAndReg (x y : Nibble) (s : State) : StepOutcome := .next (s.setV x (s.getV x &&& s.getV y))

/-- XOR Vx,Vy (R166). -/
def execXorReg (x y : Nibble) (s : State) : StepOutcome := .next (s.setV x (s.getV x ^^^ s.getV y))

/-- ADD Vx,Vy (R167): the sum is taken first, then `VF` is the carry, then `Vx` the sum modulo 256. -/
def execAddReg (x y : Nibble) (s : State) : StepOutcome :=
  let sum := s.getV x + s.getV y
  let s1 := s.setFlag (carryOf (s.getV x) (s.getV y))
  .next (s1.setV x sum)

/-- SUB Vx,Vy (R168): first `VF` is the strict not-borrow, then `Vx` the difference read after it. -/
def execSub (x y : Nibble) (s : State) : StepOutcome :=
  let s1 := s.setFlag (notBorrowOf (s.getV x) (s.getV y))
  .next (s1.setV x (s1.getV x - s1.getV y))

/-- SUBN Vx,Vy (R169): as SUB with the operands exchanged; the destination is still `Vx`. -/
def execSubn (x y : Nibble) (s : State) : StepOutcome :=
  let s1 := s.setFlag (notBorrowOf (s.getV y) (s.getV x))
  .next (s1.setV x (s1.getV y - s1.getV x))

/-- SHR Vx (R170): `VF` is the bit shifted out, then `Vx` is shifted in place. -/
def execShr (x : Nibble) (s : State) : StepOutcome :=
  let s1 := s.setFlag (shiftOutLow (s.getV x))
  .next (s1.setV x (s1.getV x >>> 1))

/-- SHL Vx (R171): `VF` is the bit shifted out, then `Vx` is shifted in place. -/
def execShl (x : Nibble) (s : State) : StepOutcome :=
  let s1 := s.setFlag (shiftOutHigh (s.getV x))
  .next (s1.setV x (s1.getV x <<< 1))

/-- LD I,nnn (R173). -/
def execLdI (nnn : Imm12) (s : State) : StepOutcome := .next (s.setI (addrOf nnn))

/-- RND Vx,kk (R172): the masked random byte is added to the old `Vx`; exactly one draw is consumed, also when
`kk = 0`. -/
def execRnd (x : Nibble) (kk : Byte) (s : State) : StepOutcome :=
  let r := s.nextRandom
  .next (s.consumeDraw.setV x (s.getV x + (r &&& kk)))

end Sys2Proof.Machine
end

