-- ==== Sys2Proof/Machine/BlockMemory.lean ====
section
/-!
DEFINITION. The memory, BCD and index instructions, spec/46_memory_bcd_index.md R220 to R225. Each memory instruction
checks its whole range first and raises MemoryAccessError having written nothing (R225, R78); `I` is never changed
by an access.
-/

namespace Sys2Proof.Machine

/-- ADD I,Vx (R220): modulo 65536, no flag. UNVERIFIED at the wrap: the spec's own decision D16 (log entry 19). -/
def execAddI (x : Nibble) (s : State) : StepOutcome := .next (s.setI (s.I + wideOf (s.getV x)))

/-- LD F,Vx (R221): `I := FONT_BASE + 5*Vx`. -/
def execLdF (x : Nibble) (s : State) : StepOutcome := .next (s.setI (glyphAddr (s.getV x)))

/-- LD B,Vx (R222): the three decimal digits to `I`, `I + 1`, `I + 2`. -/
def execLdB (x : Nibble) (s : State) : StepOutcome :=
  if inRange s.baseAddr 3 then .next (s.storeBytes s.baseAddr (bcdDigits (s.getV x)))
  else raise .memoryAccessError s

/-- LD [I],Vx (R223): `V0..Vx` to `Memory[I..I+x]`. -/
def execLdMemVx (x : Nibble) (s : State) : StepOutcome :=
  if inRange s.baseAddr (x.toNat + 1) then .next (s.storeBytes s.baseAddr (s.v0Through x))
  else raise .memoryAccessError s

/-- LD Vx,[I] (R224): `Memory[I..I+x]` to `V0..Vx`. -/
def execLdVxMem (x : Nibble) (s : State) : StepOutcome :=
  if inRange s.baseAddr (x.toNat + 1) then .next (s.setV0Through x fun k => s.byteAt (s.baseAddr + k))
  else raise .memoryAccessError s

end Sys2Proof.Machine
end

