-- ==== Sys2Proof/Machine/ControlFlow.lean ====
section
/-!
DEFINITION. The control-flow instructions, spec/41_control_flow.md R140 to R149. In every meaning `s.PC` is the
advanced value `A + 2` (spec/40_engine_and_dispatch.md R122).
-/

namespace Sys2Proof.Machine

/-- The skip rule (R145): "if the condition holds, advance `PC` by a further 2". -/
def skipIf (c : Bool) (s : State) : StepOutcome := .next (s.setPC (if c then s.PC + 2 else s.PC))

/-- CLS (R140): "zero every framebuffer cell". -/
def execCls (s : State) : StepOutcome := .next { s with fb := Vector.replicate 2048 false }

/-- RET (R141): StackUnderflow when `SP = 0`; else pop `PC`. -/
def execRet (s : State) : StepOutcome :=
  if h : 0 < s.SP.val then .next (s.pop h) else raise .stackUnderflow s

/-- JP nnn (R142): `PC := NNN`. -/
def execJp (nnn : Imm12) (s : State) : StepOutcome := .next (s.setPC (addrOf nnn))

/-- CALL nnn (R143): StackOverflow when `SP = 16`; else push the advanced `PC` and jump. -/
def execCall (nnn : Imm12) (s : State) : StepOutcome :=
  if h : s.SP.val < 16 then .next ((s.push h).setPC (addrOf nnn)) else raise .stackOverflow s

/-- JP V0,nnn (R144): `PC := NNN + V0`, not reduced modulo 4096. -/
def execJpV0 (nnn : Imm12) (s : State) : StepOutcome := .next (s.setPC (addrOf nnn + wideOf (s.getV 0)))

/-- SE Vx,kk (R146). -/
def execSeImm (x : Nibble) (kk : Byte) (s : State) : StepOutcome := skipIf (s.getV x == kk) s

/-- SNE Vx,kk (R147). -/
def execSneImm (x : Nibble) (kk : Byte) (s : State) : StepOutcome := skipIf (s.getV x != kk) s

/-- SE Vx,Vy (R148). -/
def execSeReg (x y : Nibble) (s : State) : StepOutcome := skipIf (s.getV x == s.getV y) s

/-- SNE Vx,Vy (R149). -/
def execSneReg (x y : Nibble) (s : State) : StepOutcome := skipIf (s.getV x != s.getV y) s

end Sys2Proof.Machine
end

