-- ==== Sys2Proof/Machine/Draw.lean ====
section
/-!
DEFINITION. The draw instruction, spec/43_draw.md R190 to R195, in the loops of R190: rows from the top, columns from
the left, pixels that clip, exclusive OR, and a collision that stays set.
-/

namespace Sys2Proof.Machine

/-- The framebuffer and the collision seen so far. -/
abbrev Canvas := Framebuffer × Bool

/-- One sprite pixel whose bit is 1 (R190, R193, R194): outside the grid nothing happens; inside, a cell that is on is
a collision, and the cell is toggled. -/
def togglePixel (px py : Nat) (cv : Canvas) : Canvas :=
  if h : px < 64 ∧ py < 32 then
    have hp : py * 64 + px < 2048 := by omega
    (cv.1.set (py * 64 + px) (!cv.1[py * 64 + px]) hp, cv.2 || cv.1[py * 64 + px])
  else cv

/-- Column `c` of a sprite row: bit `7 - c` of the byte; a 0 leaves the pixel alone (R191). -/
def drawColumn (b : Byte) (x0 py : Nat) (cv : Canvas) (c : Nat) : Canvas :=
  if b.getLsbD (7 - c) then togglePixel (x0 + c) py cv else cv

/-- One sprite row, its 8 columns from the left. -/
def drawRow (b : Byte) (x0 py : Nat) (cv : Canvas) : Canvas :=
  (List.range 8).foldl (drawColumn b x0 py) cv

/-- The rows of a sprite from the top, row `r` in the byte at `base + r` (R191). -/
def drawSprite (m : Memory) (base x0 y0 n : Nat) (cv : Canvas) : Canvas :=
  (List.range n).foldl (fun cv r => drawRow (m.read (base + r)) x0 (y0 + r) cv) cv

/-- DRW Vx,Vy,n (R190): all `n` bytes are checked first (R195); the origin is read before `VF` is written (R194); `VF`
ends 1 if a pixel went from on to off, else 0. UNVERIFIED: the check of clipped rows is the spec's own decision D26
(log entry 22), the order of the origin and `VF` its decision D7 (log entry 14). -/
def execDrw (x y n : Nibble) (s : State) : StepOutcome :=
  if inRange s.baseAddr n.toNat then
    let cv := drawSprite s.mem s.baseAddr (originX (s.getV x)) (originY (s.getV y)) n.toNat (s.fb, false)
    .next ({ s with fb := cv.1 }.setFlag cv.2)
  else raise .memoryAccessError s

end Sys2Proof.Machine
end

