-- ==== Sys2Proof/Machine/Engine.lean ====
section
/-!
DEFINITION. The unknown-opcode no-op, spec/40_engine_and_dispatch.md R124. The engine's own part of a cycle, the fetch and
the advance of `PC` (R121, R122), is in Ops.lean and Step.lean.
-/

namespace Sys2Proof.Machine

/-- UNKNOWN (R124): "(nothing)". No flag, no fault; the cycle's only effect is the engine's advance. -/
def execUnknown (_op : Word) (s : State) : StepOutcome := .next s

end Sys2Proof.Machine
end

