-- ==== Sys2Proof/Machine/Keypad.lean ====
section
/-!
DEFINITION. The keypad instructions, spec/44_keypad.md R200 to R204. They read the latch that the host's SETKEY writes,
and write no key.
-/

namespace Sys2Proof.Machine

/-- SKP Vx (R200): skip if the key that `Vx` names is pressed. -/
def execSkp (x : Nibble) (s : State) : StepOutcome := skipIf (s.keyDown (keyIndexOf (s.getV x))) s

/-- SKNP Vx (R201): skip if the key that `Vx` names is not pressed. -/
def execSknp (x : Nibble) (s : State) : StepOutcome := skipIf (!s.keyDown (keyIndexOf (s.getV x))) s

/-- LD Vx,K (R202): the lowest pressed key's index to `Vx`, or, with no key pressed, `PC` back to the instruction. -/
def execLdVxK (x : Nibble) (s : State) : StepOutcome :=
  match s.lowestKey with
  | some k => .next (s.setV x (BitVec.ofNat 8 k))
  | none => .next s.rewind

end Sys2Proof.Machine
end

