-- ==== Sys2Proof/Machine/Timers.lean ====
section
/-!
DEFINITION. The timer instructions, spec/45_timers.md R210 to R213. They "only touch the Timer Unit's current value";
only TICK decrements a timer (HostOps.lean).
-/

namespace Sys2Proof.Machine

/-- LD Vx,DT (R210). -/
def execLdVxDt (x : Nibble) (s : State) : StepOutcome := .next (s.setV x s.DT)

/-- LD DT,Vx (R211). -/
def execLdDtVx (x : Nibble) (s : State) : StepOutcome := .next { s with DT := s.getV x }

/-- LD ST,Vx (R212). -/
def execLdStVx (x : Nibble) (s : State) : StepOutcome := .next { s with ST := s.getV x }

end Sys2Proof.Machine
end

