-- ==== Sys2Proof/Machine/Step.lean ====
section
/-!
DEFINITION. One CYCLE, spec/40_engine_and_dispatch.md R120: the latch first, then the fetch bound, then the advance of
`PC` and exactly one handler (the order of checks is spec/60_exceptions.md R268).
-/

namespace Sys2Proof.Machine

/-- CYCLE (R120) as a function of the state. What CYCLE reports to the host is read off the state it leaves
(`cycleReply`, HostOps.lean). -/
def step (s : State) : Host.Outcome State Fault Refusal :=
  match s.halt with
  | some _ => haltedCycle s
  | none =>
    match fetchWord s with
    | none => raise .memoryAccessError s
    | some op => exec (decode op) s.advance

/-- The state with the table's instruction where `step` fetches its next one (log entry 6). -/
def State.withFetchWord (s : State) (nbits w : Nat) : State := placeAtFetch s (tableWord nbits w)

end Sys2Proof.Machine
end

