-- ==== Sys2Proof/Machine/HostOps.lean ====
section
/-!
DEFINITION. The six operations of the CORE's interface, spec/47_host_operations.md R240 to R249: RESET, LOAD, SETKEY, TICK,
FBREAD, and CYCLE, which is `step` with the result it reports (spec/40_engine_and_dispatch.md R127). Operations are
atomic and totally ordered (spec/00_scope.md R6); which one comes next is the host's choice, so it is an argument
(log entry 2).
-/

namespace Sys2Proof.Machine

/-- An operation of the interface, with its arguments (R240). -/
inductive HostOp where
  | reset
  | load (image : List Byte)
  | setKey (k : Nat) (pressed : Bool)
  | tick
  | fbRead
  | cycle
  deriving DecidableEq, Repr

/-- What an operation reports to the host (R240, R127). -/
inductive Reply where
  /-- RESET, SETKEY and TICK have no result. -/
  | nothing
  | ok
  /-- CYCLE's report of a fatal condition. -/
  | fault (c : Fault)
  /-- LOAD's failure: the image is longer than 3584 bytes (R264). -/
  | loadError
  /-- FBREAD's 2048 pixel values, `fb[y*64 + x]` (R245). -/
  | pixels (fb : Framebuffer)
  deriving DecidableEq, Repr

/-- The numeric codes of 60_exceptions.md R260, the spec's own numbering (D11). -/
def Reply.code : Reply → Option Nat
  | .ok => some 0
  | .fault .stackOverflow => some 1
  | .fault .stackUnderflow => some 2
  | .fault .memoryAccessError => some 3
  | .loadError => some 4
  | .nothing => none
  | .pixels _ => none

/-- RESET (R241): every piece of state at its reset value. The random source is not state of the CORE (R36), so the
model's count of draws goes on (log entry 3). -/
def resetOp (s : State) : State := { State.reset with draws := s.draws }

/-- LOAD (R242): an image of at most 3584 bytes is copied to `0x200` on and nothing else changes; a longer one fails
and writes nothing. -/
def loadOp (image : List Byte) (s : State) : State × Reply :=
  if image.length ≤ Config.progMax then (s.storeBytes Config.progBase image, .ok) else (s, .loadError)

/-- SETKEY (R243): `key[min(k, 15)] <- pressed`. UNVERIFIED for `k > 15`: the spec's own decision D22 (log entry 21). -/
def setKeyOp (k : Nat) (pressed : Bool) (s : State) : State :=
  { s with key := s.key.set (min k 15) pressed (by omega) }

/-- One decrement of a timer, saturating at 0 (R244). -/
def tickTimer (t : Byte) : Byte := if t = 0 then 0 else t - 1

/-- TICK (R244): each non-zero timer falls by one. -/
def tickOp (s : State) : State := { s with DT := tickTimer s.DT, ST := tickTimer s.ST }

/-- FBREAD (R245): the whole framebuffer, no side effect. -/
def fbReadOp (s : State) : Framebuffer := s.fb

/-- What CYCLE reports, read off the state it leaves (R120, R127): the latched condition, or `Ok` when there is none. -/
def cycleReply (s : State) : Reply :=
  match s.halt with
  | some c => .fault c
  | none => .ok

/-- One operation of the host on the CORE: the state it leaves and what it reports (R240). -/
def perform (op : HostOp) (s : State) : Host.Outcome (State × Reply) Fault Refusal :=
  match op with
  | .reset => .next (resetOp s, .nothing)
  | .load image => .next (loadOp image s)
  | .setKey k pressed => .next (setKeyOp k pressed s, .nothing)
  | .tick => .next (tickOp s, .nothing)
  | .fbRead => .next (s, .pixels (fbReadOp s))
  | .cycle =>
    match step s with
    | .next t => .next (t, cycleReply t)
    | .fault c => .fault c
    | .refused r => .refused r

/-- A sequence of operations in the one total order of 00_scope.md R6, with the reports in order. -/
def performAll : List HostOp → State → Host.Outcome (State × List Reply) Fault Refusal
  | [], s => .next (s, [])
  | op :: ops, s =>
    match perform op s with
    | .next (t, r) =>
      match performAll ops t with
      | .next (u, rs) => .next (u, r :: rs)
      | .fault c => .fault c
      | .refused q => .refused q
    | .fault c => .fault c
    | .refused q => .refused q

end Sys2Proof.Machine
end

