-- ==== Sys2Proof/Machine/Run.lean ====
section
/-!
DEFINITION. The end of a run, spec/70_reset_and_hazards.md R311: the three ways in which a run ends, and the spec's
convention for the end of a program, the first state of the run with `PC` at a stated address (the spec's own
decision D30, log entry 24).
-/

namespace Sys2Proof.Machine

/-- The CORE is running: no fatal condition is latched. "A halted state is never a successful end of a run"
(60_exceptions.md R271). -/
def State.running (s : State) : Bool := s.halt.isNone

/-- The running state has `PC` at the stated address `a` (R311). -/
def State.arrivedAt (s : State) (a : Word) : Bool := s.running && s.PC == a

/-- The running state has `PC = A` where the word at `A` is `JP A`, the fixed point at which programs end (R311). This
is a property of one state, which later states may have too; the end of a run is `endOfRun`. -/
def State.atSelfJump (s : State) (a : Imm12) : Bool := s.arrivedAt (addrOf a) && fetchWord s == some (encode (.jp a))

/-- The end of a run for a stated address `a`: the FIRST state of the run, its start included, that has arrived at
`a`, and the number of operations before it; nothing when the operations run out first (R311). The operations after
the end are not looked at: the convention "says nothing about the host's later operations". -/
def endOfRun (a : Word) : List HostOp → State → Option (Nat × State)
  | [], s => if s.arrivedAt a then some (0, s) else none
  | op :: ops, s =>
    if s.arrivedAt a then some (0, s)
    else
      match perform op s with
      | .next (t, _) => (endOfRun a ops t).map fun e => (e.1 + 1, e.2)
      | .fault _ => none
      | .refused _ => none

/-- The three ways in which a run ends (R311). -/
inductive RunEnd where
  /-- The host stops issuing CYCLE while the program could go on. -/
  | hostStops
  /-- A fatal condition has set `halt`; never a successful end. -/
  | fatal (c : Fault)
  /-- The instruction at `PC` leaves the whole state unchanged. -/
  | fixedPoint
  deriving DecidableEq, Repr

/-- How a run that is left in the state `s` has ended (R311). -/
def runEnd (s : State) : RunEnd :=
  match s.halt with
  | some c => .fatal c
  | none =>
    match step s with
    | .next t => if t = s then .fixedPoint else .hostStops
    | .fault _ => .hostStops
    | .refused _ => .hostStops

end Sys2Proof.Machine
end

