-- ==== Sys2Proof/Safety.lean ====
section
/-!
DEFINITION. What counts as a safe run, in the terms claims use: no fatal condition has halted the CORE
(spec/60_exceptions.md R269 to R271, `State.running`); when an instruction raises one (R263, R280); and the invariant of
the machine. The end of a run is in Machine/Run.lean.
-/

namespace Sys2Proof.Machine

/-- The condition an instruction raises when its handler starts in `s` (R261, R262, R263, and the summary R280):
StackOverflow by CALL with `SP = 16`, StackUnderflow by RET with `SP = 0`, MemoryAccessError by the four memory
instructions with a byte of their range at 4096 or above, nothing by every other instruction. -/
def raisedBy : Instr → State → Option Fault
  | .call _, s => if s.SP.val = 16 then some .stackOverflow else none
  | .ret, s => if s.SP.val = 0 then some .stackUnderflow else none
  | .drw _ _ n, s => if 0 < n.toNat ∧ 4096 ≤ s.I.toNat + n.toNat - 1 then some .memoryAccessError else none
  | .ldB _, s => if 4096 ≤ s.I.toNat + 2 then some .memoryAccessError else none
  | .ldMemVx x, s => if 4096 ≤ s.I.toNat + x.toNat then some .memoryAccessError else none
  | .ldVxMem x, s => if 4096 ≤ s.I.toNat + x.toNat then some .memoryAccessError else none
  | .cls, _ | .jp _, _ | .jpV0 _, _ | .seImm _ _, _ | .sneImm _ _, _ | .seReg _ _, _ | .sneReg _ _, _ => none
  | .ldImm _ _, _ | .addImm _ _, _ | .ldReg _ _, _ | .orReg _ _, _ | .andReg _ _, _ | .xorReg _ _, _ => none
  | .addReg _ _, _ | .sub _ _, _ | .subn _ _, _ | .shr _, _ | .shl _, _ | .ldI _, _ | .rnd _ _, _ => none
  | .skp _, _ | .sknp _, _ | .ldVxK _, _ | .ldVxDt _, _ | .ldDtVx _, _ | .ldStVx _, _ => none
  | .addI _, _ | .ldF _, _ | .unknown _, _ => none

/-- The invariant of the machine: memory is in its canonical form and inside the 4096 bytes (R33); `PC` is at most
`0x10FE`, the highest value any instruction produces (10_state.md R26); and every stack entry is at most `0x1000`,
the highest value CALL pushes (41_control_flow.md R141). `SP` in 0..16 (R28) is in its type. -/
abbrev State.Inv (s : State) : Prop :=
  s.mem.wf = true ∧ s.PC.toNat ≤ 0x10FE ∧ ∀ j : Fin 16, s.stack[j.val].toNat ≤ 0x1000

end Sys2Proof.Machine
end

