-- ==== Sys2Proof/Certificates/Slice0/Obligations.lean ====
section
/-!
DEFINITION. The statements for the provers. In a statement about `exec` the state `s` is the one the handler starts
from: its `PC` is the advanced value `A + 2` (spec/40_engine_and_dispatch.md R122). `t = { s with f := t.f, … }` says
that every component of the state but the ones it lists is unchanged, all of memory included when `mem` is not
listed.
-/

namespace Sys2Proof.Claims

open Sys2Proof.Machine

/-- Among the general registers only `Vx` may change, and it becomes `v`; every other component of the state is
unchanged. -/
def SetsOnlyVx (s t : State) (x : Nibble) (v : Byte) : Prop :=
  t = { s with V := t.V } ∧ t.getV x = v ∧ ∀ r, r ≠ x → t.getV r = s.getV r

/-- A flag-writing register instruction: `VF` receives `flag` first and `Vx` receives `result` after it, so `VF` ends
as the flag unless `x` is `0xF`; nothing else changes. -/
def SetsFlagThenVx (s t : State) (x : Nibble) (flag : Bool) (result : Byte) : Prop :=
  t = { s with V := t.V } ∧ t.getV x = result ∧ (x ≠ 0xF → t.getV 0xF = if flag then 1 else 0) ∧
    ∀ r, r ≠ x → r ≠ 0xF → t.getV r = s.getV r

/-- The **Encoding** line of a rule, with its mask and match: every word that carries `pattern` in the bits of `mask`
decodes to the instruction `i` makes of its fields. (Where the spec has the numbers and the ignored bits from is its
D3 and D4, log entry 9.) -/
def Encoded (mask pattern : Word) (i : Word → Instr) : Prop := ∀ w : Word, w &&& mask = pattern → decode w = i w

/-- The value a register holds once `flag` has been written to `VF`. -/
def afterFlag (s : State) (flag : Bool) (r : Nibble) : Byte :=
  if r = 0xF then (if flag then 1 else 0) else s.getV r

/-- The bits of a word that a dispatch stage examines or a handler uses as an operand; the others are ignored
(spec/30_encoding.md R98). -/
def significantBits : Instr → Word
  | .cls => 0xF00F
  | .ret => 0xF00F
  | .seReg _ _ => 0xFFF0
  | .sneReg _ _ => 0xFFF0
  | .shr _ => 0xFF0F
  | .shl _ => 0xFF0F
  | .skp _ => 0xFF0F
  | .sknp _ => 0xFF0F
  | _ => 0xFFFF

/-- Whether the sprite of `n` rows at `base`, with its top-left pixel at (`x0`, `y0`), has a 1 bit for the pixel
(`px`, `py`): row `r` is the byte at `base + r`, bit 7 its leftmost pixel (spec/43_draw.md R191). -/
def spriteBit (m : Memory) (base x0 y0 n px py : Nat) : Bool :=
  decide (x0 ≤ px ∧ px < x0 + 8 ∧ y0 ≤ py ∧ py < y0 + n) && (m.read (base + (py - y0))).getLsbD (7 - (px - x0))

/-- The cell of the framebuffer for the pixel in column `px`, row `py` (spec/10_state.md R31). -/
def pixel (fb : Framebuffer) (px : Fin 64) (py : Fin 32) : Bool := fb[py.val * 64 + px.val]'(by omega)

/-- Which general registers an instruction may write: the columns `Vx` and `VF` of spec/10_state.md R40. -/
def mayWriteV : Instr → Nibble → Bool
  | .ldImm x _, r | .addImm x _, r | .ldReg x _, r | .orReg x _, r | .andReg x _, r | .xorReg x _, r => r == x
  | .rnd x _, r | .ldVxDt x, r | .ldVxK x, r => r == x
  | .addReg x _, r | .sub x _, r | .subn x _, r | .shr x, r | .shl x, r => r == x || r == 0xF
  | .drw _ _ _, r => r == 0xF
  | .ldVxMem x, r => decide (r.toNat ≤ x.toNat)
  | _, _ => false

/-- The column `I` of R40. -/
def mayWriteI : Instr → Bool
  | .ldI _ | .addI _ | .ldF _ => true
  | _ => false

/-- The column `PC` of R40: what a handler writes to `PC` after the engine's advance, which R40 does not repeat. -/
def mayWritePC : Instr → Bool
  | .ret | .jp _ | .call _ | .jpV0 _ => true
  | .seImm _ _ | .sneImm _ _ | .seReg _ _ | .sneReg _ _ | .skp _ | .sknp _ => true
  | .ldVxK _ => true
  | _ => false

/-- The column `SP`, `stack` of R40, for `SP`. -/
def mayWriteSP : Instr → Bool
  | .call _ | .ret => true
  | _ => false

/-- The column `SP`, `stack` of R40, for the entries: only CALL writes one (R27). -/
def mayWriteStack : Instr → Bool
  | .call _ => true
  | _ => false

/-- The column `fb` of R40. -/
def mayWriteFb : Instr → Bool
  | .cls | .drw _ _ _ => true
  | _ => false

/-- The column `mem` of R40. -/
def mayWriteMem : Instr → Bool
  | .ldB _ | .ldMemVx _ => true
  | _ => false

/-- The column `DT` of R40. -/
def mayWriteDT : Instr → Bool
  | .ldDtVx _ => true
  | _ => false

/-- The column `ST` of R40. -/
def mayWriteST : Instr → Bool
  | .ldStVx _ => true
  | _ => false

/-- The column `random` of R40. -/
def mayDraw : Instr → Bool
  | .rnd _ _ => true
  | _ => false

/-- The table of spec/10_state.md R26: `PC` after the cycle that fetched `i` at `A = s.PC`. -/
def pcAfter (i : Instr) (s : State) : Word :=
  let skip (c : Bool) : Word := if c then s.PC + 4 else s.PC + 2
  match i with
  | .seImm x kk => skip (s.getV x == kk)
  | .sneImm x kk => skip (s.getV x != kk)
  | .seReg x y => skip (s.getV x == s.getV y)
  | .sneReg x y => skip (s.getV x != s.getV y)
  | .skp x => skip (s.key[(s.getV x).toNat % 16]'(by omega))
  | .sknp x => skip (!s.key[(s.getV x).toNat % 16]'(by omega))
  | .jp nnn => BitVec.ofNat 16 nnn.toNat
  | .call nnn => if s.SP.val = 16 then s.PC + 2 else BitVec.ofNat 16 nnn.toNat
  | .ret => if s.SP.val = 0 then s.PC + 2 else s.stack[s.SP.val - 1]'(by omega)
  | .jpV0 nnn => BitVec.ofNat 16 (nnn.toNat + (s.getV 0).toNat)
  | .ldVxK _ => if ∀ k : Fin 16, s.key[k.val] = false then s.PC else s.PC + 2
  | _ => s.PC + 2

end Sys2Proof.Claims

open Sys2Proof
open Sys2Proof.Machine
open Sys2Proof.Claims

/-! ### Encoding and decoding -/

/-- Words of every family written out from the spec's encodings decode to the instructions they stand for (vectors E1
to E31 of 95_test_vectors.md). The opcode numbers are the spec's own decision D4, the ignored bits its D3. -/
def Obligations.SpecWordsDecode : Prop :=
  decode 0x00E0 = .cls ∧ decode 0x0120 = .cls ∧ decode 0x0ABE = .ret ∧ decode 0x00EF = .unknown 0x00EF ∧
  decode 0x1234 = .jp 0x234 ∧ decode 0x2FFF = .call 0xFFF ∧ decode 0x3A7F = .seImm 0xA 0x7F ∧
  decode 0x512F = .seReg 1 2 ∧ decode 0x9AB7 = .sneReg 0xA 0xB ∧ decode 0x8AB0 = .ldReg 0xA 0xB ∧
  decode 0x8AB7 = .subn 0xA 0xB ∧ decode 0x8AB8 = .unknown 0x8AB8 ∧ decode 0x8ABE = .shl 0xA ∧
  decode 0xBFFF = .jpV0 0xFFF ∧ decode 0xD125 = .drw 1 2 5 ∧ decode 0xE10E = .skp 1 ∧ decode 0xE1F1 = .sknp 1 ∧
  decode 0xF107 = .ldVxDt 1 ∧ decode 0xF00A = .ldVxK 0 ∧ decode 0xFF65 = .ldVxMem 0xF ∧
  decode 0xFFFF = .unknown 0xFFFF

/-- Decoding the word of a well-formed instruction gives the instruction back, with every operand at every value, also
through the bytes it is stored as. (R105 and R106 as functions; numbers by D4, ignored bits by D3.) -/
def Obligations.DecodeInvertsEncode : Prop :=
  ∀ i : Instr, i.wellFormed = true →
    decode (encode i) = i ∧ ∀ rest, decodeBytes (encodeBytes i ++ rest) = .ok (i, rest)

/-- The decoder is total and the unknown words are exactly the list of R99: a word of the list decodes to UNKNOWN with
that word, and every other word decodes to one of the 34 instructions. -/
def Obligations.UnknownWordsAreExactlyTheListed : Prop :=
  ∀ w : Word, (decode w).wellFormed = true ∧ (decode w = .unknown w ↔ isUnknownWord w = true) ∧
    ∀ w', decode w = .unknown w' → w' = w

/-- The two-stage decoder and the opcode table are one decoder: a word decodes to the instruction of the first row that
covers it, and no word is covered by two of the 34 instruction rows (R104). -/
def Obligations.DecoderAgreesWithTheOpcodeTable : Prop :=
  ∀ w : Word, (opcodeTable.find? fun r => r.covers w).map OpcodeRow.mnemonic = some (decode w).mnemonic ∧
    ∀ r ∈ instructionRows, ∀ r' ∈ instructionRows, r.covers w = true → r'.covers w = true → r = r'

/-- Bits that no dispatch stage examines and no handler uses are ignored: words that agree in the other bits decode
alike. This is R98, the spec's own decision D3 (log entry 9). -/
def Obligations.IgnoredBitsDoNotMatter : Prop :=
  ∀ w w' : Word, w &&& significantBits (decode w) = w' &&& significantBits (decode w) → decode w' = decode w

/-! ### The cycle -/

/-- R67: the opcode is the byte at `PC` shifted left by 8, OR the byte at `PC + 1`; an instruction is stored high byte
first. -/
def Obligations.FetchIsBigEndian : Prop :=
  (∀ s : State, s.PC.toNat + 1 < 4096 →
    fetchWord s = some ((s.byteAt s.PC.toNat).setWidth 16 <<< 8 ||| (s.byteAt (s.PC.toNat + 1)).setWidth 16)) ∧
  ∀ i : Instr, encodeBytes i = [(encode i >>> 8).setWidth 8, (encode i).setWidth 8]

/-- A step at a state whose bytes at `PC` decode to `i` is `exec` of `i` on the state with `PC` advanced by 2 (R122). -/
def Obligations.StepRunsTheDecodedInstruction : Prop :=
  ∀ (s : State) (hi lo : Byte) (i : Instr), s.halt = none → s.PC.toNat + 1 < 4096 →
    s.byteAt s.PC.toNat = hi → s.byteAt (s.PC.toNat + 1) = lo → decodeBytes [hi, lo] = .ok (i, []) →
    step s = exec i { s with PC := s.PC + 2 }

/-- A fetch at `PC >= 4095` raises MemoryAccessError with `PC` unchanged and nothing else changed. That the fetch is
checked is the spec's own decision D31 (log entry 23), the latch its D10 (log entry 15). -/
def Obligations.FetchFaultsAtTheEdgeOfMemory : Prop :=
  ∀ s : State, s.halt = none → 4095 ≤ s.PC.toNat →
    perform .cycle s = .next ({ s with halt := some .memoryAccessError }, .fault .memoryAccessError)

/-- CYCLE while halted changes no state and reports the latched condition again; the latch is the spec's own decision
D10 (log entry 15). -/
def Obligations.HaltedCycleChangesNothing : Prop :=
  ∀ (s : State) (c : Fault), s.halt = some c → perform .cycle s = .next (s, .fault c)

/-- Only RESET clears a set latch, and no operation replaces the latched condition (60_exceptions.md R271; the spec's own
decision D10, log entry 15). -/
def Obligations.OnlyResetClearsTheLatch : Prop :=
  ∀ (op : HostOp) (s t : State) (c : Fault) (r : Reply), s.halt = some c → perform op s = .next (t, r) →
    t.halt = if op = .reset then none else some c

/-- Every handler either raises the one condition its rule gives it, leaving everything but the latch as it found it,
or completes and leaves the latch alone (R263, R280; all-or-nothing and `PC = A + 2` are the spec's own decisions D8
and D9, the checked rows of DRW its D26; log entries 15 and 22). -/
def Obligations.EveryHandlerCompletesOrRaisesItsCondition : Prop :=
  ∀ (i : Instr) (s : State),
    (∀ c, raisedBy i s = some c → exec i s = .next { s with halt := some c }) ∧
    (raisedBy i s = none → ∃ t, exec i s = .next t ∧ t.halt = s.halt)

/-- CYCLE reports `Ok` exactly when the fetched instruction completes, UNKNOWN and a key-wait without a key included,
and the condition when it raises one (R127; the state after a condition is by the spec's decisions D8 to D10). -/
def Obligations.CycleReportsOkOrTheCondition : Prop :=
  ∀ (s : State) (w : Word), s.halt = none → fetchWord s = some w →
    match raisedBy (decode w) { s with PC := s.PC + 2 } with
    | some c => perform .cycle s = .next ({ s with PC := s.PC + 2, halt := some c }, .fault c)
    | none => ∃ t, perform .cycle s = .next (t, .ok) ∧ t.halt = none

/-- Every operation of the interface answers a next state and a report, in every state: nothing of the CORE is refused
and no step is stuck. (The model's form of a fatal condition, log entry 1.) -/
def Obligations.EveryOperationAnswers : Prop :=
  ∀ (op : HostOp) (s : State), ∃ t r, perform op s = .next (t, r)

/-- `PC` after every cycle is the table of R26 (`PC = A + 2` after a handler's condition is the spec's own decision D9,
arithmetic modulo 65536 its D17, the key index and the scan its D12 and D13; log entries 15, 16, 17, 19). -/
def Obligations.PcAfterEveryCycle : Prop :=
  ∀ (s : State) (w : Word), s.halt = none → fetchWord s = some w →
    ∃ t, step s = .next t ∧ t.PC = pcAfter (decode w) s

/-! ### Control flow -/

/-- R124: UNKNOWN does nothing; a cycle that fetches an unknown word only advances `PC` by 2 and reports `Ok`. -/
def Obligations.UnknownOpcodeIsANoOp : Prop :=
  (∀ (w : Word) (s : State), exec (.unknown w) s = .next s) ∧
  ∀ (s : State) (w : Word), s.halt = none → fetchWord s = some w → isUnknownWord w = true →
    perform .cycle s = .next ({ s with PC := s.PC + 2 }, .ok)

/-- R140: CLS, with its encoding and its canonical word, zeroes every framebuffer cell and changes nothing else. -/
def Obligations.ClsClearsEveryPixel : Prop :=
  Encoded 0xF00F 0x0000 (fun _ => .cls) ∧ encode .cls = 0x00E0 ∧
  ∀ s : State, ∃ t, exec .cls s = .next t ∧ t = { s with fb := t.fb } ∧ ∀ px py, pixel t.fb px py = false

/-- R141: RET pops `PC` and leaves the entries as they are; with `SP = 0` it raises StackUnderflow (the state it then
leaves is by the spec's decisions D8 to D10, that the entry is kept by D25; log entries 7 and 15). -/
def Obligations.RetPopsThePc : Prop :=
  ∀ s : State,
    (∀ h : 0 < s.SP.val, ∃ t, exec .ret s = .next t ∧ t = { s with PC := t.PC, SP := t.SP } ∧
      t.SP.val = s.SP.val - 1 ∧ t.PC = s.stack[s.SP.val - 1]'(by omega)) ∧
    (s.SP.val = 0 → exec .ret s = .next { s with halt := some .stackUnderflow })

/-- R143: CALL pushes the advanced `PC` at `stack[SP]`, increments `SP` and jumps; with `SP = 16` it raises
StackOverflow (the state it then leaves is by the spec's decisions D8 to D10, log entry 15). -/
def Obligations.CallPushesThePc : Prop :=
  ∀ (nnn : Imm12) (s : State),
    (s.SP.val < 16 → ∃ t, exec (.call nnn) s = .next t ∧ t = { s with PC := t.PC, SP := t.SP, stack := t.stack } ∧
      t.SP.val = s.SP.val + 1 ∧ t.PC.toNat = nnn.toNat ∧
      ∀ j : Fin 16, t.stack[j.val] = if j.val = s.SP.val then s.PC else s.stack[j.val]) ∧
    (s.SP.val = 16 → exec (.call nnn) s = .next { s with halt := some .stackOverflow })

/-- The source's property S3: a CALL followed at once by a RET (fetched at the target, so its handler starts with the
`PC` after it) restores `PC` to the address after the CALL and `SP` to its value before it; only the stack entry
written by the CALL may differ. -/
def Obligations.CallThenRetRestores : Prop :=
  ∀ (nnn : Imm12) (s : State), s.SP.val < 16 →
    ∃ t u, exec (.call nnn) s = .next t ∧ exec .ret { t with PC := t.PC + 2 } = .next u ∧
      u = { s with stack := u.stack } ∧ ∀ j : Fin 16, j.val ≠ s.SP.val → u.stack[j.val] = s.stack[j.val]

/-- R142, with its encoding: `PC := NNN`, the low 12 bits zero-extended; nothing else changes. -/
def Obligations.JumpSetsThePc : Prop :=
  Encoded 0xF000 0x1000 (fun w => .jp (nnnOf w)) ∧
  ∀ (nnn : Imm12) (s : State), ∃ t, exec (.jp nnn) s = .next t ∧ t = { s with PC := t.PC } ∧ t.PC.toNat = nnn.toNat

/-- R144, with its encoding: `PC := NNN + V0`, not reduced modulo 4096; nothing else changes. -/
def Obligations.JumpWithOffsetAddsV0 : Prop :=
  Encoded 0xF000 0xB000 (fun w => .jpV0 (nnnOf w)) ∧
  ∀ (nnn : Imm12) (s : State), ∃ t, exec (.jpV0 nnn) s = .next t ∧ t = { s with PC := t.PC } ∧
    t.PC.toNat = nnn.toNat + (s.getV 0).toNat

/-- R146 to R149, with their encodings: each register skip advances `PC` by a further 2 exactly when its condition holds,
and changes nothing else. -/
def Obligations.SkipsAdvanceThePcOnTheirCondition : Prop :=
  Encoded 0xF000 0x3000 (fun w => .seImm (xOf w) (kkOf w)) ∧ Encoded 0xF000 0x4000 (fun w => .sneImm (xOf w) (kkOf w)) ∧
  Encoded 0xF000 0x5000 (fun w => .seReg (xOf w) (yOf w)) ∧ Encoded 0xF000 0x9000 (fun w => .sneReg (xOf w) (yOf w)) ∧
  ∀ (x y : Nibble) (kk : Byte) (s : State),
    exec (.seImm x kk) s = .next { s with PC := if s.getV x = kk then s.PC + 2 else s.PC } ∧
    exec (.sneImm x kk) s = .next { s with PC := if s.getV x = kk then s.PC else s.PC + 2 } ∧
    exec (.seReg x y) s = .next { s with PC := if s.getV x = s.getV y then s.PC + 2 else s.PC } ∧
    exec (.sneReg x y) s = .next { s with PC := if s.getV x = s.getV y then s.PC else s.PC + 2 }

/-! ### Arithmetic and logic -/

/-- R161 and R162, with their encodings: `Vx := kk`, and `Vx := (Vx + kk) mod 256` with no flag written. -/
def Obligations.ImmediateFormsWriteOnlyVx : Prop :=
  Encoded 0xF000 0x6000 (fun w => .ldImm (xOf w) (kkOf w)) ∧ Encoded 0xF000 0x7000 (fun w => .addImm (xOf w) (kkOf w)) ∧
  ∀ (x : Nibble) (kk : Byte) (s : State),
    (∃ t, exec (.ldImm x kk) s = .next t ∧ SetsOnlyVx s t x kk) ∧
    ∃ t, exec (.addImm x kk) s = .next t ∧ SetsOnlyVx s t x (t.getV x) ∧
      (t.getV x).toNat = ((s.getV x).toNat + kk.toNat) % 256

/-- R163 to R166, with their encodings: assign, OR, AND and XOR write `Vx` alone, and no flag (unless `x` is `0xF`, when
`VF` receives the result). -/
def Obligations.RegisterLogicWritesOnlyVx : Prop :=
  Encoded 0xF00F 0x8000 (fun w => .ldReg (xOf w) (yOf w)) ∧ Encoded 0xF00F 0x8001 (fun w => .orReg (xOf w) (yOf w)) ∧
  Encoded 0xF00F 0x8002 (fun w => .andReg (xOf w) (yOf w)) ∧ Encoded 0xF00F 0x8003 (fun w => .xorReg (xOf w) (yOf w)) ∧
  ∀ (x y : Nibble) (s : State),
    (∃ t, exec (.ldReg x y) s = .next t ∧ SetsOnlyVx s t x (s.getV y)) ∧
    (∃ t, exec (.orReg x y) s = .next t ∧ SetsOnlyVx s t x (s.getV x ||| s.getV y)) ∧
    (∃ t, exec (.andReg x y) s = .next t ∧ SetsOnlyVx s t x (s.getV x &&& s.getV y)) ∧
    ∃ t, exec (.xorReg x y) s = .next t ∧ SetsOnlyVx s t x (s.getV x ^^^ s.getV y)

/-- R167, with its encoding: the sum is taken before any write; `VF` is 1 when it exceeds 255, else 0, and `Vx` is the
sum modulo 256, which lands last when `x` is `0xF`. -/
def Obligations.AddReportsTheCarry : Prop :=
  Encoded 0xF00F 0x8004 (fun w => .addReg (xOf w) (yOf w)) ∧
  ∀ (x y : Nibble) (s : State), ∃ t, exec (.addReg x y) s = .next t ∧
    SetsFlagThenVx s t x (decide (255 < (s.getV x).toNat + (s.getV y).toNat)) (t.getV x) ∧
    (t.getV x).toNat = ((s.getV x).toNat + (s.getV y).toNat) % 256

/-- R168: `VF` is 1 exactly when `Vx > Vy` (0 for equal operands); then `Vx` is the difference modulo 256 of the values
the registers hold after that write. The reading of operands after the flag, which matters only where `x` or `y` is
`0xF`, is the spec's own decision D6 (log entry 13). -/
def Obligations.SubReportsStrictNotBorrow : Prop :=
  ∀ (x y : Nibble) (s : State),
    let f := decide ((s.getV y).toNat < (s.getV x).toNat)
    ∃ t, exec (.sub x y) s = .next t ∧ SetsFlagThenVx s t x f (t.getV x) ∧
      ((t.getV x).toNat : Int) = (((afterFlag s f x).toNat : Int) - (afterFlag s f y).toNat) % 256

/-- R169: as SUB with minuend and subtrahend exchanged; the destination is still `Vx`. By the spec's own decision D6
where `x` or `y` is `0xF` (log entry 13). -/
def Obligations.SubnReportsStrictNotBorrow : Prop :=
  ∀ (x y : Nibble) (s : State),
    let f := decide ((s.getV x).toNat < (s.getV y).toNat)
    ∃ t, exec (.subn x y) s = .next t ∧ SetsFlagThenVx s t x f (t.getV x) ∧
      ((t.getV x).toNat : Int) = (((afterFlag s f y).toNat : Int) - (afterFlag s f x).toNat) % 256

/-- R170 and R171: a shift by one place in place, `VF` the bit shifted out, written before the shifted value is read
(by the spec's own decision D6 where `x` is `0xF`, log entry 13). -/
def Obligations.ShiftsReportTheBitShiftedOut : Prop :=
  ∀ (x : Nibble) (s : State),
    (let f := decide ((s.getV x).toNat % 2 = 1)
     ∃ t, exec (.shr x) s = .next t ∧ SetsFlagThenVx s t x f (t.getV x) ∧
       (t.getV x).toNat = (afterFlag s f x).toNat / 2) ∧
    (let f := decide (128 ≤ (s.getV x).toNat)
     ∃ t, exec (.shl x) s = .next t ∧ SetsFlagThenVx s t x f (t.getV x) ∧
       (t.getV x).toNat = 2 * (afterFlag s f x).toNat % 256)

/-- R172: RND adds the masked byte of the draw to the old `Vx`, modulo 256, so the result is `Vx` plus a submask of
`kk`; exactly one draw is consumed. The byte is a free value (the spec's decision D21, log entry 3), and the
statement holds whatever it is. -/
def Obligations.RndAddsAMaskedRandomByte : Prop :=
  ∀ (x : Nibble) (kk : Byte) (s : State), ∃ t, exec (.rnd x kk) s = .next t ∧
    t = { s with V := t.V, draws := s.draws + 1 } ∧
    t.getV x = s.getV x + (Config.randomByte s.draws &&& kk) ∧ (∃ m : Byte, m &&& ~~~kk = 0 ∧ t.getV x = s.getV x + m) ∧
    ∀ r, r ≠ x → t.getV r = s.getV r

/-- R173 and R221, with their encodings: `I := NNN`, and `I := 0x050 + 5*Vx` with the whole of `Vx`; nothing else
changes. -/
def Obligations.IndexLoadsWriteOnlyI : Prop :=
  Encoded 0xF000 0xA000 (fun w => .ldI (nnnOf w)) ∧ Encoded 0xF0FF 0xF029 (fun w => .ldF (xOf w)) ∧
  ∀ (nnn : Imm12) (x : Nibble) (s : State),
    (∃ t, exec (.ldI nnn) s = .next t ∧ t = { s with I := t.I } ∧ t.I.toNat = nnn.toNat) ∧
    ∃ t, exec (.ldF x) s = .next t ∧ t = { s with I := t.I } ∧ t.I.toNat = 0x050 + 5 * (s.getV x).toNat

/-- R220: `I := (I + Vx) mod 65536`, no flag; the wrap is the spec's own decision D16 (log entry 19). -/
def Obligations.AddToIndexWraps : Prop :=
  ∀ (x : Nibble) (s : State), ∃ t, exec (.addI x) s = .next t ∧ t = { s with I := t.I } ∧
    t.I.toNat = (s.I.toNat + (s.getV x).toNat) % 65536

/-! ### Draw -/

/-- DRW as one formula: with its `n` bytes inside memory, every cell of the grid becomes the exclusive OR of its value
and the sprite's bit for it (origin modulo 64 and 32, pixels outside the grid not drawn), `VF` becomes 1 exactly when
some cell was on and its bit is 1, and nothing else changes. That the origin is read before `VF` is cleared is the
spec's own decision D7, that clipped rows are checked its D26 (log entries 14 and 22). -/
def Obligations.DrwCompositesTheSprite : Prop :=
  ∀ (x y n : Nibble) (s : State), n.toNat = 0 ∨ s.I.toNat + n.toNat - 1 < 4096 →
    let bit := spriteBit s.mem s.I.toNat ((s.getV x).toNat % 64) ((s.getV y).toNat % 32) n.toNat
    ∃ t, exec (.drw x y n) s = .next t ∧ t = { s with fb := t.fb, V := t.V } ∧
      (∀ px py, pixel t.fb px py = Bool.xor (pixel s.fb px py) (bit px.val py.val)) ∧
      (t.getV 0xF = if ∃ px py, pixel s.fb px py = true ∧ bit px.val py.val = true then 1 else 0) ∧
      ∀ r, r ≠ 0xF → t.getV r = s.getV r

/-- The source's property S4, and more: drawing the same sprite twice at the same origin gives the framebuffer back,
and from a clear display the first draw leaves `VF = 0` and the second `VF = 1` exactly when the first drew a pixel.
(The origin registers are other than `VF`, so the spec's decision D7 is not at stake.) -/
def Obligations.DrawingTwiceErases : Prop :=
  ∀ (x y n : Nibble) (s : State), x ≠ 0xF → y ≠ 0xF → n.toNat = 0 ∨ s.I.toNat + n.toNat - 1 < 4096 →
    ∃ t u, exec (.drw x y n) s = .next t ∧ exec (.drw x y n) { t with PC := t.PC + 2 } = .next u ∧ u.fb = s.fb ∧
      ((∀ px py, pixel s.fb px py = false) → t.getV 0xF = 0 ∧
        (u.getV 0xF = if ∃ px py, pixel t.fb px py = true then 1 else 0))

/-! ### Keypad and timers -/

/-- R200, R201, R203: SKP and SKNP read the key whose index is the value of `Vx` modulo 16, and change only `PC`. For
values above 15 the index is the spec's own decision D12 (log entry 16). -/
def Obligations.KeySkipsReadTheNamedKey : Prop :=
  ∀ (x : Nibble) (s : State),
    let down := s.key[(s.getV x).toNat % 16]'(by omega)
    exec (.skp x) s = .next { s with PC := if down then s.PC + 2 else s.PC } ∧
    exec (.sknp x) s = .next { s with PC := if down then s.PC else s.PC + 2 }

/-- R202: with no key pressed the key-wait only takes `PC` back by 2; else it stores the lowest pressed index in `Vx`
and changes nothing else. Which of several pressed keys is the spec's own decision D13 (log entry 17). -/
def Obligations.KeyWaitStoresTheLowestKeyOrRewinds : Prop :=
  ∀ (x : Nibble) (s : State),
    ((∀ k : Fin 16, s.key[k.val] = false) → exec (.ldVxK x) s = .next { s with PC := s.PC - 2 }) ∧
    ∀ k : Fin 16, s.key[k.val] = true → (∀ j : Fin 16, j < k → s.key[j.val] = false) →
      ∃ t, exec (.ldVxK x) s = .next t ∧ SetsOnlyVx s t x (t.getV x) ∧ (t.getV x).toNat = k.val

/-- The source's property S5: a cycle that fetches a key-wait with no key pressed leaves the whole state as it was, and
reports `Ok`. -/
def Obligations.KeyWaitPollsWithoutChange : Prop :=
  ∀ (s : State) (w : Word) (x : Nibble), s.halt = none → fetchWord s = some w → decode w = .ldVxK x →
    (∀ k : Fin 16, s.key[k.val] = false) → perform .cycle s = .next (s, .ok)

/-- R210 to R212, with their encodings: `Vx := DT`, `DT := Vx`, `ST := Vx`; nothing else changes. -/
def Obligations.TimerInstructionsMoveOneValue : Prop :=
  Encoded 0xF0FF 0xF007 (fun w => .ldVxDt (xOf w)) ∧ Encoded 0xF0FF 0xF015 (fun w => .ldDtVx (xOf w)) ∧
  Encoded 0xF0FF 0xF018 (fun w => .ldStVx (xOf w)) ∧
  ∀ (x : Nibble) (s : State),
    (∃ t, exec (.ldVxDt x) s = .next t ∧ SetsOnlyVx s t x s.DT) ∧
    exec (.ldDtVx x) s = .next { s with DT := s.getV x } ∧
    exec (.ldStVx x) s = .next { s with ST := s.getV x }

/-- R244: TICK takes each non-zero timer down by exactly 1, never below 0, whatever the rest of the state is (a set
latch included), and changes nothing else. -/
def Obligations.TickDecrementsEachNonzeroTimer : Prop :=
  ∀ s : State, ∃ t, perform .tick s = .next (t, .nothing) ∧ t = { s with DT := t.DT, ST := t.ST } ∧
    t.DT.toNat = s.DT.toNat - 1 ∧ t.ST.toNat = s.ST.toNat - 1

/-- R126: `DT` and `ST` change during a CYCLE only when the executed instruction is LD DT,Vx or LD ST,Vx. -/
def Obligations.CyclesMoveTimersOnlyByTheirInstructions : Prop :=
  ∀ s t : State, step s = .next t →
    (t.DT ≠ s.DT → ∃ w x, fetchWord s = some w ∧ decode w = .ldDtVx x) ∧
    (t.ST ≠ s.ST → ∃ w x, fetchWord s = some w ∧ decode w = .ldStVx x)

/-! ### Memory, BCD -/

/-- R222: with `I + 2 < 4096` the hundreds, tens and ones of `Vx` go to `I`, `I + 1`, `I + 2` and every other byte, and
everything else, is unchanged; else MemoryAccessError with nothing written (by the spec's decisions D8 to D10; stores
into the glyph region are performed by its D14; log entries 15 and 18). -/
def Obligations.BcdStoreWritesThreeDigits : Prop :=
  ∀ (x : Nibble) (s : State), s.mem.wf = true →
    (s.I.toNat + 2 < 4096 → ∃ t, exec (.ldB x) s = .next t ∧ t = { s with mem := t.mem } ∧
      (t.byteAt s.I.toNat).toNat = (s.getV x).toNat / 100 ∧
      (t.byteAt (s.I.toNat + 1)).toNat = (s.getV x).toNat / 10 % 10 ∧
      (t.byteAt (s.I.toNat + 2)).toNat = (s.getV x).toNat % 10 ∧
      ∀ a, a < s.I.toNat ∨ s.I.toNat + 2 < a → t.byteAt a = s.byteAt a) ∧
    (4096 ≤ s.I.toNat + 2 → exec (.ldB x) s = .next { s with halt := some .memoryAccessError })

/-- R223: with `I + x < 4096` the registers `V0..Vx` go to `Memory[I..I+x]` and every other byte, and everything else
(`I` included), is unchanged; else MemoryAccessError with nothing written (by the spec's decisions D8 to D10 and D14;
log entries 15 and 18). -/
def Obligations.RegisterDumpWritesV0ThroughVx : Prop :=
  ∀ (x : Nibble) (s : State), s.mem.wf = true →
    (s.I.toNat + x.toNat < 4096 → ∃ t, exec (.ldMemVx x) s = .next t ∧ t = { s with mem := t.mem } ∧
      (∀ r : Nibble, r.toNat ≤ x.toNat → t.byteAt (s.I.toNat + r.toNat) = s.getV r) ∧
      ∀ a, a < s.I.toNat ∨ s.I.toNat + x.toNat < a → t.byteAt a = s.byteAt a) ∧
    (4096 ≤ s.I.toNat + x.toNat → exec (.ldMemVx x) s = .next { s with halt := some .memoryAccessError })

/-- R224: with `I + x < 4096` the registers `V0..Vx` receive `Memory[I..I+x]`, the registers above `Vx` and everything
else are unchanged; else MemoryAccessError with no register written (by the spec's decisions D8 to D10, log entry
15). -/
def Obligations.RegisterLoadReadsV0ThroughVx : Prop :=
  ∀ (x : Nibble) (s : State),
    (s.I.toNat + x.toNat < 4096 → ∃ t, exec (.ldVxMem x) s = .next t ∧ t = { s with V := t.V } ∧
      ∀ r : Nibble, t.getV r = if r.toNat ≤ x.toNat then s.byteAt (s.I.toNat + r.toNat) else s.getV r) ∧
    (4096 ≤ s.I.toNat + x.toNat → exec (.ldVxMem x) s = .next { s with halt := some .memoryAccessError })

/-- A store is seen by the next fetch (20_memory.md R76, the spec's own decision D23): after a register dump of two or
more registers to the address in `PC`, the word fetched there is `V0` as high byte and `V1` as low byte. -/
def Obligations.StoredCodeIsFetched : Prop :=
  ∀ (x : Nibble) (s : State), s.mem.wf = true → s.I = s.PC → 1 ≤ x.toNat → s.I.toNat + x.toNat < 4096 →
    ∃ t, exec (.ldMemVx x) s = .next t ∧ fetchWord t = some (s.getV 0 ++ s.getV 1)

/-! ### Host operations -/

/-- R38 and R241: the state RESET leaves, from any state: `PC = 0x200`, memory zero but for the glyphs, everything else
zero. The glyph bytes are the spec's own decision D15, the released keys its D18, RESET as an operation its D19 (log
entries 11, 12, 20). -/
def Obligations.ResetPutsEveryPieceAtItsResetValue : Prop :=
  glyphRom.length = 80 ∧ ∀ s : State, ∃ t, perform .reset s = .next (t, .nothing) ∧
    t.PC = 0x200 ∧ (∀ r, t.getV r = 0) ∧ t.I = 0 ∧ t.SP = 0 ∧ (∀ j : Fin 16, t.stack[j.val] = 0) ∧ t.DT = 0 ∧ t.ST = 0 ∧
    (∀ k : Fin 16, t.key[k.val] = false) ∧ (∀ px py, pixel t.fb px py = false) ∧ t.halt = none ∧
    ∀ a, t.byteAt a = if 0x050 ≤ a ∧ a ≤ 0x09F then glyphRom.getD (a - 0x050) 0 else 0

/-- R242: LOAD of at most 3584 bytes copies the image to `0x200` on, leaves every other byte and everything else alone
and reports `Ok`; a longer image reports LoadError and changes nothing. LOAD at any time is the spec's own decision
D24 (log entry 20). -/
def Obligations.LoadCopiesTheImage : Prop :=
  ∀ (image : List Byte) (s : State), s.mem.wf = true →
    (image.length ≤ 3584 → ∃ t, perform (.load image) s = .next (t, .ok) ∧ t = { s with mem := t.mem } ∧
      ∀ a, t.byteAt a =
        if 0x200 ≤ a ∧ a < 0x200 + image.length then image.getD (a - 0x200) 0 else s.byteAt a) ∧
    (3584 < image.length → perform (.load image) s = .next (s, .loadError))

/-- R243: SETKEY sets the one key `min(k, 15)` and changes nothing else. For `k > 15` the clamp is the spec's own
decision D22 (log entry 21). -/
def Obligations.SetKeyChangesOneKey : Prop :=
  ∀ (k : Nat) (pressed : Bool) (s : State), ∃ t, perform (.setKey k pressed) s = .next (t, .nothing) ∧
    t = { s with key := t.key } ∧ ∀ j : Fin 16, t.key[j.val] = if j.val = min k 15 then pressed else s.key[j.val]

/-- R245: FBREAD reports every pixel of the grid and changes nothing (any time between cycles by the spec's decision
D33). -/
def Obligations.FbReadReportsTheGrid : Prop :=
  ∀ s : State, ∃ grid, perform .fbRead s = .next (s, .pixels grid) ∧ ∀ px py, pixel grid px py = pixel s.fb px py

/-! ### Whole-machine rules -/

/-- The state RESET leaves has the invariant. -/
def Obligations.ResetHasTheInvariant : Prop := ∀ s : State, (resetOp s).Inv

/-- Every step keeps the invariant: memory stays canonical and inside the 4096 bytes, `PC` never exceeds `0x10FE` and no
stack entry `0x1000` (the ranges of R26 and R141; that nothing wraps there is the spec's decision D17). -/
def Obligations.EveryStepKeepsTheInvariant : Prop :=
  ∀ s t : State, s.Inv → step s = .next t → t.Inv

/-- Every sequence of host operations, cycles among them, keeps the invariant. -/
def Obligations.EveryRunKeepsTheInvariant : Prop :=
  ∀ (ops : List HostOp) (s t : State) (rs : List Reply), s.Inv → performAll ops s = .next (t, rs) → t.Inv

/-- The write side of the access matrix R40, for every instruction in every state: a component the matrix does not mark
for the instruction is unchanged, `PC` after the engine's advance among them; no instruction writes a key. That `RND`
alone consumes a draw is said through the model's own count of draws (log entry 3). -/
def Obligations.InstructionsWriteOnlyWhatTheMatrixMarks : Prop :=
  ∀ (i : Instr) (s t : State), exec i s = .next t →
    (∀ r, mayWriteV i r = false → t.getV r = s.getV r) ∧ (mayWriteI i = false → t.I = s.I) ∧
    (mayWritePC i = false → t.PC = s.PC) ∧
    (mayWriteSP i = false → t.SP = s.SP) ∧ (mayWriteStack i = false → t.stack = s.stack) ∧
    (mayWriteFb i = false → t.fb = s.fb) ∧ (mayWriteMem i = false → t.mem = s.mem) ∧
    (mayWriteDT i = false → t.DT = s.DT) ∧ (mayWriteST i = false → t.ST = s.ST) ∧
    (mayDraw i = false → t.draws = s.draws) ∧ t.key = s.key

/-- Nothing in the CORE depends on `ST` (47_host_operations.md R248, the spec's decision D27): two states that differ in
`ST` alone step to states that differ in `ST` alone. The two steps start from the same `draws`, so RND draws the same
byte in both: the comparison is under one and the same random input, a choice of the model (log entry 3, DESIGN
CHOICE). -/
def Obligations.SoundTimerIsNotObservable : Prop :=
  ∀ (s t : State) (a : Byte), step s = .next t → ∃ b, step { s with ST := a } = .next { t with ST := b }

/-- A popped stack entry is not observable by a program (10_state.md R27, the spec's decision D25): states that agree but
for the entries at and above `SP` step to states that agree but for those. The two steps start from the same `draws`, so
RND draws the same byte in both: the comparison is under one and the same random input, a choice of the model (log entry
3, DESIGN CHOICE). -/
def Obligations.PoppedEntriesAreNotObservable : Prop :=
  ∀ s s' t : State, s' = { s with stack := s'.stack } →
    (∀ j : Fin 16, j.val < s.SP.val → s'.stack[j.val] = s.stack[j.val]) → step s = .next t →
    ∃ t', step s' = .next t' ∧ t' = { t with stack := t'.stack } ∧
      ∀ j : Fin 16, j.val < t.SP.val → t'.stack[j.val] = t.stack[j.val]

/-- R311: a running cycle leaves the whole state unchanged exactly when it fetches `JP A` at `A`, JP V0,nnn at
`nnn + V0`, or LD Vx,K with no key pressed (the convention for the end of a run is the spec's decision D30, log entry
24). -/
def Obligations.FixedPointsAreSelfJumpsAndKeyWaits : Prop :=
  ∀ (s : State) (w : Word), s.halt = none → fetchWord s = some w →
    (step s = .next s ↔
      (∃ nnn, decode w = .jp nnn ∧ nnn.toNat = s.PC.toNat) ∨
      (∃ nnn, decode w = .jpV0 nnn ∧ nnn.toNat + (s.getV 0).toNat = s.PC.toNat) ∨
      ∃ x, decode w = .ldVxK x ∧ ∀ k : Fin 16, s.key[k.val] = false)

/-! ### The end of a run -/

/-- R311: the end of a run for a stated address is its first running state with `PC` there. `endOfRun` answers `k` and
`t` exactly when `t` is the state after the first `k` operations, it is running with `PC = a`, and the state after no
fewer operations is. (The convention is the spec's decision D30, log entry 24; that a halted state is no end is R271.) -/
def Obligations.EndOfRunIsTheFirstArrival : Prop :=
  ∀ (a : Word) (ops : List HostOp) (s t : State) (k : Nat),
    endOfRun a ops s = some (k, t) ↔
      k ≤ ops.length ∧ (∃ rs, performAll (ops.take k) s = .next (t, rs)) ∧ t.halt = none ∧ t.PC = a ∧
      ∀ j < k, ∀ u rs, performAll (ops.take j) s = .next (u, rs) → ¬(u.halt = none ∧ u.PC = a)

/-- The end of a run says nothing about the host's later operations: whatever follows, the end is the one that was
reached (R311, the spec's decision D30, log entry 24). -/
def Obligations.LaterOperationsDoNotMoveTheEnd : Prop :=
  ∀ (a : Word) (ops later : List HostOp) (s : State) (e : Nat × State),
    endOfRun a ops s = some e → endOfRun a (ops ++ later) s = some e

/-- At a final self-jump a CYCLE changes nothing and reports `Ok`, and of the host's later operations all but RESET and
LOAD change `DT`, `ST` and `key` at most and leave the machine at the self-jump (R311, the spec's decision D30, log
entry 24). -/
def Obligations.AtASelfJumpOnlyTheHostChangesState : Prop :=
  ∀ (a : Imm12) (s : State), s.atSelfJump a = true →
    perform .cycle s = .next (s, .ok) ∧
    ∀ (op : HostOp) (t : State) (r : Reply), op ≠ .reset → (∀ image, op ≠ .load image) → perform op s = .next (t, r) →
      t = { s with DT := t.DT, ST := t.ST, key := t.key } ∧ t.atSelfJump a = true

/-- The three ways a run ends, R311: a fatal condition is latched; the machine is running and a step leaves the whole
state unchanged; or neither, and only the host ends the run (the fixed points are those of
`FixedPointsAreSelfJumpsAndKeyWaits`; the latch is the spec's decision D10, log entry 15). -/
def Obligations.ARunEndsInOneOfThreeWays : Prop :=
  ∀ s : State,
    (∀ c, runEnd s = .fatal c ↔ s.halt = some c) ∧
    (runEnd s = .fixedPoint ↔ s.halt = none ∧ step s = .next s) ∧
    (runEnd s = .hostStops ↔ s.halt = none ∧ step s ≠ .next s)
end

