-- ==== Sys2Proof/Laws/Decode.lean ====
section
/-!
SUPPORT. A word written as nibbles, bytes and immediates as a number, and what the fields of spec/30_encoding.md R91 and
the two bytes of spec/20_memory.md R67 read from it.
-/

namespace Sys2Proof

theorem toNat_append {m n : Nat} (x : BitVec m) (y : BitVec n) : (x ++ y).toNat = x.toNat * 2 ^ n + y.toNat := by
  rw [BitVec.toNat_append, ← Nat.shiftLeft_add_eq_or_of_lt y.isLt, Nat.shiftLeft_eq]

theorem toNat_imm12 (p : Nibble) (nnn : Imm12) : (p ++ nnn : Word).toNat = p.toNat * 4096 + nnn.toNat :=
  toNat_append p nnn

theorem toNat_xkk (p x : Nibble) (kk : Byte) : (p ++ x ++ kk : Word).toNat = (p.toNat * 16 + x.toNat) * 256 + kk.toNat :=
  (toNat_append (p ++ x) kk).trans (by rw [toNat_append]; rfl)

theorem toNat_xyn (p x y n : Nibble) :
    (p ++ x ++ y ++ n : Word).toNat = ((p.toNat * 16 + x.toNat) * 16 + y.toNat) * 16 + n.toNat :=
  (toNat_append (p ++ x ++ y) n).trans (by rw [toNat_append, toNat_append]; rfl)

theorem toNat_opcodeOfBytes (hi lo : Byte) : (opcodeOfBytes hi lo).toNat = hi.toNat * 256 + lo.toNat :=
  toNat_append hi lo

/-! ### The fields as numbers -/

theorem op1Of_toNat (op : Word) : (op1Of op).toNat = op.toNat / 4096 := by
  simp [op1Of, Nat.shiftRight_eq_div_pow]; omega

theorem xOf_toNat (op : Word) : (xOf op).toNat = op.toNat / 256 % 16 := by
  simp [xOf, Nat.shiftRight_eq_div_pow]

theorem yOf_toNat (op : Word) : (yOf op).toNat = op.toNat / 16 % 16 := by
  simp [yOf, Nat.shiftRight_eq_div_pow]

theorem nOf_toNat (op : Word) : (nOf op).toNat = op.toNat % 16 := by
  simp [nOf]

theorem kkOf_toNat (op : Word) : (kkOf op).toNat = op.toNat % 256 := by
  simp [kkOf]

theorem nnnOf_toNat (op : Word) : (nnnOf op).toNat = op.toNat % 4096 := by
  simp [nnnOf]

/-! ### The fields of a word written as fields -/

theorem op1Of_imm12 (p : Nibble) (nnn : Imm12) : op1Of (p ++ nnn) = p :=
  BitVec.eq_of_toNat_eq (by rw [op1Of_toNat, toNat_imm12]; omega)

theorem nnnOf_imm12 (p : Nibble) (nnn : Imm12) : nnnOf (p ++ nnn) = nnn :=
  BitVec.eq_of_toNat_eq (by rw [nnnOf_toNat, toNat_imm12]; omega)

theorem op1Of_xkk (p x : Nibble) (kk : Byte) : op1Of (p ++ x ++ kk) = p :=
  BitVec.eq_of_toNat_eq (by rw [op1Of_toNat, toNat_xkk]; omega)

theorem xOf_xkk (p x : Nibble) (kk : Byte) : xOf (p ++ x ++ kk) = x :=
  BitVec.eq_of_toNat_eq (by rw [xOf_toNat, toNat_xkk]; omega)

theorem kkOf_xkk (p x : Nibble) (kk : Byte) : kkOf (p ++ x ++ kk) = kk :=
  BitVec.eq_of_toNat_eq (by rw [kkOf_toNat, toNat_xkk]; omega)

theorem nOf_xkk (p x : Nibble) (kk : Byte) : nOf (p ++ x ++ kk) = kk.extractLsb' 0 4 :=
  BitVec.eq_of_toNat_eq (by rw [nOf_toNat, toNat_xkk]; simp; omega)

theorem op1Of_xyn (p x y n : Nibble) : op1Of (p ++ x ++ y ++ n) = p :=
  BitVec.eq_of_toNat_eq (by rw [op1Of_toNat, toNat_xyn]; omega)

theorem xOf_xyn (p x y n : Nibble) : xOf (p ++ x ++ y ++ n) = x :=
  BitVec.eq_of_toNat_eq (by rw [xOf_toNat, toNat_xyn]; omega)

theorem yOf_xyn (p x y n : Nibble) : yOf (p ++ x ++ y ++ n) = y :=
  BitVec.eq_of_toNat_eq (by rw [yOf_toNat, toNat_xyn]; omega)

theorem nOf_xyn (p x y n : Nibble) : nOf (p ++ x ++ y ++ n) = n :=
  BitVec.eq_of_toNat_eq (by rw [nOf_toNat, toNat_xyn]; omega)

/-! ### The fields a mask examines -/

/-- The leading nibble of a word, read off under the mask of a row of 30_encoding.md R93. -/
theorem op1Of_of_mask {w : Word} {p : Nibble} (h : w &&& 0xF000 = p ++ 0#12) : op1Of w = p := by
  rw [← op1Of_imm12 p 0#12, ← h]
  simp only [op1Of, BitVec.extractLsb'_and]
  exact (BitVec.and_allOnes).symm

/-- Both nibbles of a word, read off under the mask of a row of R94 to R96. -/
theorem op1Of_nOf_of_mask {w : Word} {p n : Nibble} (h : w &&& 0xF00F = p ++ 0#4 ++ 0#4 ++ n) :
    op1Of w = p ∧ nOf w = n := by
  constructor
  · rw [← op1Of_xyn p 0#4 0#4 n, ← h]
    simp only [op1Of, BitVec.extractLsb'_and]
    exact (BitVec.and_allOnes).symm
  · rw [← nOf_xyn p 0#4 0#4 n, ← h]
    simp only [nOf, BitVec.extractLsb'_and]
    exact (BitVec.and_allOnes).symm

/-- The leading nibble and the trailing byte of a word, read off under the mask of a row of R97. -/
theorem op1Of_kkOf_of_mask {w : Word} {p : Nibble} {kk : Byte} (h : w &&& 0xF0FF = p ++ 0#4 ++ kk) :
    op1Of w = p ∧ kkOf w = kk := by
  constructor
  · rw [← op1Of_xkk p 0#4 kk, ← h]
    simp only [op1Of, BitVec.extractLsb'_and]
    exact (BitVec.and_allOnes).symm
  · rw [← kkOf_xkk p 0#4 kk, ← h]
    simp only [kkOf, BitVec.extractLsb'_and]
    exact (BitVec.and_allOnes).symm

/-- The bytes of an opcode give the opcode back (R67). -/
theorem opcodeOfBytes_split (op : Word) : opcodeOfBytes (op.extractLsb' 8 8) (op.extractLsb' 0 8) = op := by
  apply BitVec.eq_of_toNat_eq
  rw [toNat_opcodeOfBytes]
  simp [Nat.shiftRight_eq_div_pow]
  omega

/-- Decoding the stored bytes of an opcode is decoding the opcode. -/
theorem decodeBytes_bytesOfOpcode (op : Word) (rest : List Byte) :
    decodeBytes (bytesOfOpcode op ++ rest) = .ok (decode op, rest) := by
  show Except.ok (decode (opcodeOfBytes _ _), rest) = _
  rw [opcodeOfBytes_split]

end Sys2Proof
end

