-- ==== Sys2Proof/Laws/Memory.lean ====
section
/-!
SUPPORT. The laws of memory (spec/20_memory.md R66): a read after a write, the canonical form kept by every memory
operation, and equal contents are equal data.
-/

namespace Sys2Proof.Machine

@[simp] theorem Memory.read_nil (a : Nat) : Memory.read [] a = resetByte a := rfl

theorem Memory.read_cons (k : Nat) (b : Byte) (m : Memory) (a : Nat) :
    Memory.read ((k, b) :: m) a = if k = a then b else Memory.read m a := rfl

theorem Memory.wfFrom_cons {lo k : Nat} {b : Byte} {m : Memory} :
    Memory.wfFrom lo ((k, b) :: m) = true ↔
      lo ≤ k ∧ k < 4096 ∧ b ≠ resetByte k ∧ Memory.wfFrom (k + 1) m = true := by
  simp only [Memory.wfFrom, Bool.and_eq_true, decide_eq_true_eq, and_assoc]

/-- A canonical memory from `lo` up is one from any lower address up. -/
theorem Memory.wfFrom_mono {lo lo' : Nat} {m : Memory} (hle : lo' ≤ lo) (h : Memory.wfFrom lo m = true) :
    Memory.wfFrom lo' m = true := by
  cases m with
  | nil => rfl
  | cons c m =>
    obtain ⟨k, b⟩ := c
    rw [Memory.wfFrom_cons] at h ⊢
    exact ⟨by omega, h.2⟩

/-- Below its first address a canonical memory reads as after reset. -/
theorem Memory.read_below {lo a : Nat} {m : Memory} (h : Memory.wfFrom lo m = true) (ha : a < lo) :
    m.read a = resetByte a := by
  induction m generalizing lo with
  | nil => rfl
  | cons c m ih =>
    obtain ⟨k, b⟩ := c
    rw [Memory.wfFrom_cons] at h
    rw [Memory.read_cons, if_neg (by omega)]
    exact ih h.2.2.2 (by omega)

/-- Read after write, from `lo` up. -/
theorem Memory.read_writeFrom {lo a : Nat} {m : Memory} (h : Memory.wfFrom lo m = true) (v : Byte) (a' : Nat) :
    (m.write a v).read a' = if a' = a then v else m.read a' := by
  induction m generalizing lo with
  | nil =>
    simp only [Memory.write]
    by_cases hv : v = resetByte a
    · rw [if_pos hv]
      split
      · rename_i e
        rw [e, hv, Memory.read_nil]
      · rfl
    · rw [if_neg hv, Memory.read_cons]
      split <;> split <;> first | rfl | omega
  | cons c m ih =>
    obtain ⟨k, b⟩ := c
    rw [Memory.wfFrom_cons] at h
    simp only [Memory.write]
    by_cases hka : k < a
    · rw [if_pos hka, Memory.read_cons, ih h.2.2.2, Memory.read_cons]
      split <;> split <;> first | rfl | omega
    · rw [if_neg hka]
      by_cases hk : k = a
      · subst hk
        rw [if_pos rfl]
        by_cases hv : v = resetByte k
        · rw [if_pos hv, Memory.read_cons]
          by_cases e : a' = k
          · subst e
            rw [if_pos rfl, Memory.read_below h.2.2.2 (by omega), hv]
          · rw [if_neg e, if_neg (Ne.symm e)]
        · rw [if_neg hv, Memory.read_cons, Memory.read_cons]
          split <;> split <;> first | rfl | omega
      · rw [if_neg hk]
        by_cases hv : v = resetByte a
        · rw [if_pos hv]
          by_cases e : a' = a
          · subst e
            rw [if_pos rfl, Memory.read_cons, if_neg hk, Memory.read_below h.2.2.2 (by omega), hv]
          · rw [if_neg e]
        · rw [if_neg hv, Memory.read_cons (m := (k, b) :: m)]
          split <;> split <;> first | rfl | omega

/-- R66: "A read returns the value of the most recent write to that byte", and a write leaves every other byte alone. -/
theorem Memory.read_write {m : Memory} (h : m.wf = true) (a : Nat) (v : Byte) (a' : Nat) :
    (m.write a v).read a' = if a' = a then v else m.read a' :=
  Memory.read_writeFrom h v a'

theorem Memory.wfFrom_write {lo a : Nat} {m : Memory} (h : Memory.wfFrom lo m = true) (hlo : lo ≤ a) (ha : a < 4096)
    (v : Byte) : Memory.wfFrom lo (m.write a v) = true := by
  induction m generalizing lo with
  | nil =>
    simp only [Memory.write]
    split
    · rfl
    · rw [Memory.wfFrom_cons]
      exact ⟨hlo, ha, by assumption, rfl⟩
  | cons c m ih =>
    obtain ⟨k, b⟩ := c
    have h0 := h
    rw [Memory.wfFrom_cons] at h
    simp only [Memory.write]
    by_cases hka : k < a
    · rw [if_pos hka, Memory.wfFrom_cons]
      exact ⟨h.1, h.2.1, h.2.2.1, ih h.2.2.2 (by omega)⟩
    · rw [if_neg hka]
      by_cases hk : k = a
      · subst hk
        rw [if_pos rfl]
        by_cases hv : v = resetByte k
        · rw [if_pos hv]
          exact Memory.wfFrom_mono (by omega) h.2.2.2
        · rw [if_neg hv, Memory.wfFrom_cons]
          exact ⟨hlo, ha, hv, h.2.2.2⟩
      · rw [if_neg hk]
        by_cases hv : v = resetByte a
        · rw [if_pos hv]
          exact h0
        · rw [if_neg hv, Memory.wfFrom_cons, Memory.wfFrom_cons]
          exact ⟨hlo, ha, hv, by omega, h.2⟩

/-- A write inside memory keeps the canonical form. -/
theorem Memory.wf_write {m : Memory} (h : m.wf = true) {a : Nat} (ha : a < 4096) (v : Byte) : (m.write a v).wf = true :=
  Memory.wfFrom_write h (Nat.zero_le a) ha v

/-- A store of consecutive bytes inside memory keeps the canonical form. -/
theorem Memory.wf_writeBytes {m : Memory} (h : m.wf = true) {a : Nat} {vs : List Byte} (ha : a + vs.length ≤ 4096) :
    (m.writeBytes a vs).wf = true := by
  induction vs generalizing m a with
  | nil => exact h
  | cons v vs ih =>
    simp only [List.length_cons] at ha
    exact ih (Memory.wf_write h (by omega) v) (by omega)

/-- What a byte reads as after a store of consecutive bytes: the stored byte inside the range, the old byte outside. -/
theorem Memory.read_writeBytes {m : Memory} (h : m.wf = true) {a : Nat} {vs : List Byte} (ha : a + vs.length ≤ 4096)
    (a' : Nat) :
    (m.writeBytes a vs).read a' = if a ≤ a' ∧ a' < a + vs.length then vs.getD (a' - a) 0 else m.read a' := by
  induction vs generalizing m a with
  | nil => rw [Memory.writeBytes, if_neg (by simp only [List.length_nil]; omega)]
  | cons v vs ih =>
    simp only [List.length_cons] at ha ⊢
    rw [Memory.writeBytes, ih (Memory.wf_write h (by omega) v) (by omega), Memory.read_write h]
    by_cases e : a' = a
    · subst e
      rw [if_neg (by omega), if_pos rfl, if_pos (by omega), Nat.sub_self]
      rfl
    · rw [if_neg e]
      by_cases hin : a + 1 ≤ a' ∧ a' < a + 1 + vs.length
      · rw [if_pos hin, if_pos (by omega), show a' - a = (a' - (a + 1)) + 1 by omega]
        rfl
      · rw [if_neg hin, if_neg (by omega)]

theorem Memory.ext_from {lo : Nat} {m m' : Memory} (h : Memory.wfFrom lo m = true) (h' : Memory.wfFrom lo m' = true)
    (e : ∀ a, m.read a = m'.read a) : m = m' := by
  induction m generalizing m' lo with
  | nil =>
    cases m' with
    | nil => rfl
    | cons c m' =>
      obtain ⟨k, b⟩ := c
      rw [Memory.wfFrom_cons] at h'
      have := e k
      rw [Memory.read_cons, if_pos rfl] at this
      exact absurd this.symm h'.2.2.1
  | cons c m ih =>
    obtain ⟨k, b⟩ := c
    have h0 := h
    rw [Memory.wfFrom_cons] at h
    cases m' with
    | nil =>
      have := e k
      rw [Memory.read_cons, if_pos rfl] at this
      exact absurd this h.2.2.1
    | cons c' m' =>
      obtain ⟨k', b'⟩ := c'
      have h0' := h'
      rw [Memory.wfFrom_cons] at h'
      have ek := e k
      have ek' := e k'
      rw [Memory.read_cons, Memory.read_cons] at ek ek'
      have hkk : k = k' := by
        rcases Nat.lt_trichotomy k k' with lt | eq | gt
        · rw [if_pos rfl, if_neg (by omega), Memory.read_below h'.2.2.2 (by omega)] at ek
          exact absurd ek h.2.2.1
        · exact eq
        · rw [if_neg (by omega), if_pos rfl, Memory.read_below h.2.2.2 (by omega)] at ek'
          exact absurd ek'.symm h'.2.2.1
      subst hkk
      rw [if_pos rfl, if_pos rfl] at ek
      subst ek
      rw [ih h.2.2.2 h'.2.2.2]
      intro a
      by_cases ha : a < k + 1
      · rw [Memory.read_below h.2.2.2 ha, Memory.read_below h'.2.2.2 ha]
      · have := e a
        rwa [Memory.read_cons, Memory.read_cons, if_neg (by omega), if_neg (by omega)] at this

/-- Canonical memories that read the same everywhere are the same list. -/
theorem Memory.ext_of_read {m m' : Memory} (h : m.wf = true) (h' : m'.wf = true) (e : ∀ a, m.read a = m'.read a) :
    m = m' :=
  Memory.ext_from h h' e

end Sys2Proof.Machine
end

