-- ==== Sys2Proof/Laws/HostOps.lean ====
section
/-!
SUPPORT. What each operation of the host makes of each field of `State`, true by `rfl`; LOAD's two outcomes; and a
sequence of operations taken apart.
-/

namespace Sys2Proof.Machine

variable (s : State)

/-! ### RESET -/

@[simp] theorem resetOp_mem : (resetOp s).mem = State.reset.mem := rfl
@[simp] theorem resetOp_V : (resetOp s).V = State.reset.V := rfl
@[simp] theorem resetOp_I : (resetOp s).I = State.reset.I := rfl
@[simp] theorem resetOp_PC : (resetOp s).PC = State.reset.PC := rfl
@[simp] theorem resetOp_stack : (resetOp s).stack = State.reset.stack := rfl
@[simp] theorem resetOp_SP : (resetOp s).SP = State.reset.SP := rfl
@[simp] theorem resetOp_DT : (resetOp s).DT = State.reset.DT := rfl
@[simp] theorem resetOp_ST : (resetOp s).ST = State.reset.ST := rfl
@[simp] theorem resetOp_key : (resetOp s).key = State.reset.key := rfl
@[simp] theorem resetOp_fb : (resetOp s).fb = State.reset.fb := rfl
@[simp] theorem resetOp_halt : (resetOp s).halt = State.reset.halt := rfl
@[simp] theorem resetOp_draws : (resetOp s).draws = s.draws := rfl

/-! ### `setKeyOp` -/

@[simp] theorem setKeyOp_mem (k : Nat) (pressed : Bool) : (setKeyOp k pressed s).mem = s.mem := rfl
@[simp] theorem setKeyOp_V (k : Nat) (pressed : Bool) : (setKeyOp k pressed s).V = s.V := rfl
@[simp] theorem setKeyOp_I (k : Nat) (pressed : Bool) : (setKeyOp k pressed s).I = s.I := rfl
@[simp] theorem setKeyOp_PC (k : Nat) (pressed : Bool) : (setKeyOp k pressed s).PC = s.PC := rfl
@[simp] theorem setKeyOp_stack (k : Nat) (pressed : Bool) : (setKeyOp k pressed s).stack = s.stack := rfl
@[simp] theorem setKeyOp_SP (k : Nat) (pressed : Bool) : (setKeyOp k pressed s).SP = s.SP := rfl
@[simp] theorem setKeyOp_DT (k : Nat) (pressed : Bool) : (setKeyOp k pressed s).DT = s.DT := rfl
@[simp] theorem setKeyOp_ST (k : Nat) (pressed : Bool) : (setKeyOp k pressed s).ST = s.ST := rfl
@[simp] theorem setKeyOp_key (k : Nat) (pressed : Bool) : (setKeyOp k pressed s).key = s.key.set (min k 15) pressed (by omega) := rfl
@[simp] theorem setKeyOp_fb (k : Nat) (pressed : Bool) : (setKeyOp k pressed s).fb = s.fb := rfl
@[simp] theorem setKeyOp_halt (k : Nat) (pressed : Bool) : (setKeyOp k pressed s).halt = s.halt := rfl
@[simp] theorem setKeyOp_draws (k : Nat) (pressed : Bool) : (setKeyOp k pressed s).draws = s.draws := rfl

/-! ### `tickOp` -/

@[simp] theorem tickOp_mem : (tickOp s).mem = s.mem := rfl
@[simp] theorem tickOp_V : (tickOp s).V = s.V := rfl
@[simp] theorem tickOp_I : (tickOp s).I = s.I := rfl
@[simp] theorem tickOp_PC : (tickOp s).PC = s.PC := rfl
@[simp] theorem tickOp_stack : (tickOp s).stack = s.stack := rfl
@[simp] theorem tickOp_SP : (tickOp s).SP = s.SP := rfl
@[simp] theorem tickOp_DT : (tickOp s).DT = tickTimer s.DT := rfl
@[simp] theorem tickOp_ST : (tickOp s).ST = tickTimer s.ST := rfl
@[simp] theorem tickOp_key : (tickOp s).key = s.key := rfl
@[simp] theorem tickOp_fb : (tickOp s).fb = s.fb := rfl
@[simp] theorem tickOp_halt : (tickOp s).halt = s.halt := rfl
@[simp] theorem tickOp_draws : (tickOp s).draws = s.draws := rfl

/-! ### LOAD -/

theorem loadOp_of_le {image : List Byte} (h : image.length ≤ 3584) (s : State) :
    loadOp image s = (s.storeBytes 0x200 image, .ok) :=
  if_pos h

theorem loadOp_of_lt {image : List Byte} (h : 3584 < image.length) (s : State) :
    loadOp image s = (s, .loadError) :=
  if_neg (Nat.not_le.2 h)

/-! ### Sequences -/

/-- A sequence answers exactly when its first operation and the rest do. -/
theorem performAll_cons_next {op : HostOp} {ops : List HostOp} {s u : State} {rs : List Reply}
    (h : performAll (op :: ops) s = .next (u, rs)) :
    ∃ t r rs', perform op s = .next (t, r) ∧ performAll ops t = .next (u, rs') ∧ rs = r :: rs' := by
  rw [performAll] at h
  split at h
  · rename_i t r hp
    split at h
    · rename_i u' rs' hq
      cases h
      exact ⟨t, r, rs', hp, hq, rfl⟩
    · cases h
    · cases h
  · cases h
  · cases h

end Sys2Proof.Machine
end

