-- ==== Sys2Proof/Laws/State.lean ====
section
/-!
SUPPORT. One lemma per field of `State` per named update, true by `rfl`: what the update makes of the field. With
these no proof unfolds a record update.
-/

namespace Sys2Proof.Machine

variable (s : State)

/-! ### `State.setV` -/

@[simp] theorem State.setV_mem (x : Nibble) (v : Byte) : (s.setV x v).mem = s.mem := rfl
@[simp] theorem State.setV_V (x : Nibble) (v : Byte) : (s.setV x v).V = s.V.set x.toNat v x.isLt := rfl
@[simp] theorem State.setV_I (x : Nibble) (v : Byte) : (s.setV x v).I = s.I := rfl
@[simp] theorem State.setV_PC (x : Nibble) (v : Byte) : (s.setV x v).PC = s.PC := rfl
@[simp] theorem State.setV_stack (x : Nibble) (v : Byte) : (s.setV x v).stack = s.stack := rfl
@[simp] theorem State.setV_SP (x : Nibble) (v : Byte) : (s.setV x v).SP = s.SP := rfl
@[simp] theorem State.setV_DT (x : Nibble) (v : Byte) : (s.setV x v).DT = s.DT := rfl
@[simp] theorem State.setV_ST (x : Nibble) (v : Byte) : (s.setV x v).ST = s.ST := rfl
@[simp] theorem State.setV_key (x : Nibble) (v : Byte) : (s.setV x v).key = s.key := rfl
@[simp] theorem State.setV_fb (x : Nibble) (v : Byte) : (s.setV x v).fb = s.fb := rfl
@[simp] theorem State.setV_halt (x : Nibble) (v : Byte) : (s.setV x v).halt = s.halt := rfl
@[simp] theorem State.setV_draws (x : Nibble) (v : Byte) : (s.setV x v).draws = s.draws := rfl

/-! ### `State.setV0Through` -/

@[simp] theorem State.setV0Through_mem (x : Nibble) (f : Nat → Byte) : (s.setV0Through x f).mem = s.mem := rfl
@[simp] theorem State.setV0Through_V (x : Nibble) (f : Nat → Byte) : (s.setV0Through x f).V = Vector.ofFn fun k : Fin 16 => if k.val ≤ x.toNat then f k.val else s.V[k.val] := rfl
@[simp] theorem State.setV0Through_I (x : Nibble) (f : Nat → Byte) : (s.setV0Through x f).I = s.I := rfl
@[simp] theorem State.setV0Through_PC (x : Nibble) (f : Nat → Byte) : (s.setV0Through x f).PC = s.PC := rfl
@[simp] theorem State.setV0Through_stack (x : Nibble) (f : Nat → Byte) : (s.setV0Through x f).stack = s.stack := rfl
@[simp] theorem State.setV0Through_SP (x : Nibble) (f : Nat → Byte) : (s.setV0Through x f).SP = s.SP := rfl
@[simp] theorem State.setV0Through_DT (x : Nibble) (f : Nat → Byte) : (s.setV0Through x f).DT = s.DT := rfl
@[simp] theorem State.setV0Through_ST (x : Nibble) (f : Nat → Byte) : (s.setV0Through x f).ST = s.ST := rfl
@[simp] theorem State.setV0Through_key (x : Nibble) (f : Nat → Byte) : (s.setV0Through x f).key = s.key := rfl
@[simp] theorem State.setV0Through_fb (x : Nibble) (f : Nat → Byte) : (s.setV0Through x f).fb = s.fb := rfl
@[simp] theorem State.setV0Through_halt (x : Nibble) (f : Nat → Byte) : (s.setV0Through x f).halt = s.halt := rfl
@[simp] theorem State.setV0Through_draws (x : Nibble) (f : Nat → Byte) : (s.setV0Through x f).draws = s.draws := rfl

/-! ### `State.setI` -/

@[simp] theorem State.setI_mem (v : Word) : (s.setI v).mem = s.mem := rfl
@[simp] theorem State.setI_V (v : Word) : (s.setI v).V = s.V := rfl
@[simp] theorem State.setI_I (v : Word) : (s.setI v).I = v := rfl
@[simp] theorem State.setI_PC (v : Word) : (s.setI v).PC = s.PC := rfl
@[simp] theorem State.setI_stack (v : Word) : (s.setI v).stack = s.stack := rfl
@[simp] theorem State.setI_SP (v : Word) : (s.setI v).SP = s.SP := rfl
@[simp] theorem State.setI_DT (v : Word) : (s.setI v).DT = s.DT := rfl
@[simp] theorem State.setI_ST (v : Word) : (s.setI v).ST = s.ST := rfl
@[simp] theorem State.setI_key (v : Word) : (s.setI v).key = s.key := rfl
@[simp] theorem State.setI_fb (v : Word) : (s.setI v).fb = s.fb := rfl
@[simp] theorem State.setI_halt (v : Word) : (s.setI v).halt = s.halt := rfl
@[simp] theorem State.setI_draws (v : Word) : (s.setI v).draws = s.draws := rfl

/-! ### `State.setPC` -/

@[simp] theorem State.setPC_mem (t : Word) : (s.setPC t).mem = s.mem := rfl
@[simp] theorem State.setPC_V (t : Word) : (s.setPC t).V = s.V := rfl
@[simp] theorem State.setPC_I (t : Word) : (s.setPC t).I = s.I := rfl
@[simp] theorem State.setPC_PC (t : Word) : (s.setPC t).PC = t := rfl
@[simp] theorem State.setPC_stack (t : Word) : (s.setPC t).stack = s.stack := rfl
@[simp] theorem State.setPC_SP (t : Word) : (s.setPC t).SP = s.SP := rfl
@[simp] theorem State.setPC_DT (t : Word) : (s.setPC t).DT = s.DT := rfl
@[simp] theorem State.setPC_ST (t : Word) : (s.setPC t).ST = s.ST := rfl
@[simp] theorem State.setPC_key (t : Word) : (s.setPC t).key = s.key := rfl
@[simp] theorem State.setPC_fb (t : Word) : (s.setPC t).fb = s.fb := rfl
@[simp] theorem State.setPC_halt (t : Word) : (s.setPC t).halt = s.halt := rfl
@[simp] theorem State.setPC_draws (t : Word) : (s.setPC t).draws = s.draws := rfl

/-! ### `State.advance` -/

@[simp] theorem State.advance_mem : (s.advance).mem = s.mem := rfl
@[simp] theorem State.advance_V : (s.advance).V = s.V := rfl
@[simp] theorem State.advance_I : (s.advance).I = s.I := rfl
@[simp] theorem State.advance_PC : (s.advance).PC = s.PC + 2 := rfl
@[simp] theorem State.advance_stack : (s.advance).stack = s.stack := rfl
@[simp] theorem State.advance_SP : (s.advance).SP = s.SP := rfl
@[simp] theorem State.advance_DT : (s.advance).DT = s.DT := rfl
@[simp] theorem State.advance_ST : (s.advance).ST = s.ST := rfl
@[simp] theorem State.advance_key : (s.advance).key = s.key := rfl
@[simp] theorem State.advance_fb : (s.advance).fb = s.fb := rfl
@[simp] theorem State.advance_halt : (s.advance).halt = s.halt := rfl
@[simp] theorem State.advance_draws : (s.advance).draws = s.draws := rfl

/-! ### `State.rewind` -/

@[simp] theorem State.rewind_mem : (s.rewind).mem = s.mem := rfl
@[simp] theorem State.rewind_V : (s.rewind).V = s.V := rfl
@[simp] theorem State.rewind_I : (s.rewind).I = s.I := rfl
@[simp] theorem State.rewind_PC : (s.rewind).PC = s.PC - 2 := rfl
@[simp] theorem State.rewind_stack : (s.rewind).stack = s.stack := rfl
@[simp] theorem State.rewind_SP : (s.rewind).SP = s.SP := rfl
@[simp] theorem State.rewind_DT : (s.rewind).DT = s.DT := rfl
@[simp] theorem State.rewind_ST : (s.rewind).ST = s.ST := rfl
@[simp] theorem State.rewind_key : (s.rewind).key = s.key := rfl
@[simp] theorem State.rewind_fb : (s.rewind).fb = s.fb := rfl
@[simp] theorem State.rewind_halt : (s.rewind).halt = s.halt := rfl
@[simp] theorem State.rewind_draws : (s.rewind).draws = s.draws := rfl

/-! ### `State.storeBytes` -/

@[simp] theorem State.storeBytes_mem (a : Nat) (vs : List Byte) : (s.storeBytes a vs).mem = s.mem.writeBytes a vs := rfl
@[simp] theorem State.storeBytes_V (a : Nat) (vs : List Byte) : (s.storeBytes a vs).V = s.V := rfl
@[simp] theorem State.storeBytes_I (a : Nat) (vs : List Byte) : (s.storeBytes a vs).I = s.I := rfl
@[simp] theorem State.storeBytes_PC (a : Nat) (vs : List Byte) : (s.storeBytes a vs).PC = s.PC := rfl
@[simp] theorem State.storeBytes_stack (a : Nat) (vs : List Byte) : (s.storeBytes a vs).stack = s.stack := rfl
@[simp] theorem State.storeBytes_SP (a : Nat) (vs : List Byte) : (s.storeBytes a vs).SP = s.SP := rfl
@[simp] theorem State.storeBytes_DT (a : Nat) (vs : List Byte) : (s.storeBytes a vs).DT = s.DT := rfl
@[simp] theorem State.storeBytes_ST (a : Nat) (vs : List Byte) : (s.storeBytes a vs).ST = s.ST := rfl
@[simp] theorem State.storeBytes_key (a : Nat) (vs : List Byte) : (s.storeBytes a vs).key = s.key := rfl
@[simp] theorem State.storeBytes_fb (a : Nat) (vs : List Byte) : (s.storeBytes a vs).fb = s.fb := rfl
@[simp] theorem State.storeBytes_halt (a : Nat) (vs : List Byte) : (s.storeBytes a vs).halt = s.halt := rfl
@[simp] theorem State.storeBytes_draws (a : Nat) (vs : List Byte) : (s.storeBytes a vs).draws = s.draws := rfl

/-! ### `State.push` -/

@[simp] theorem State.push_mem (h : s.SP.val < 16) : (s.push h).mem = s.mem := rfl
@[simp] theorem State.push_V (h : s.SP.val < 16) : (s.push h).V = s.V := rfl
@[simp] theorem State.push_I (h : s.SP.val < 16) : (s.push h).I = s.I := rfl
@[simp] theorem State.push_PC (h : s.SP.val < 16) : (s.push h).PC = s.PC := rfl
@[simp] theorem State.push_stack (h : s.SP.val < 16) : (s.push h).stack = s.stack.set s.SP.val s.PC h := rfl
@[simp] theorem State.push_SP (h : s.SP.val < 16) : (s.push h).SP = ⟨s.SP.val + 1, by omega⟩ := rfl
@[simp] theorem State.push_DT (h : s.SP.val < 16) : (s.push h).DT = s.DT := rfl
@[simp] theorem State.push_ST (h : s.SP.val < 16) : (s.push h).ST = s.ST := rfl
@[simp] theorem State.push_key (h : s.SP.val < 16) : (s.push h).key = s.key := rfl
@[simp] theorem State.push_fb (h : s.SP.val < 16) : (s.push h).fb = s.fb := rfl
@[simp] theorem State.push_halt (h : s.SP.val < 16) : (s.push h).halt = s.halt := rfl
@[simp] theorem State.push_draws (h : s.SP.val < 16) : (s.push h).draws = s.draws := rfl

/-! ### `State.pop` -/

@[simp] theorem State.pop_mem (h : 0 < s.SP.val) : (s.pop h).mem = s.mem := rfl
@[simp] theorem State.pop_V (h : 0 < s.SP.val) : (s.pop h).V = s.V := rfl
@[simp] theorem State.pop_I (h : 0 < s.SP.val) : (s.pop h).I = s.I := rfl
@[simp] theorem State.pop_PC (h : 0 < s.SP.val) : (s.pop h).PC = s.stack[s.SP.val - 1]'(by have := s.SP.isLt; omega) := rfl
@[simp] theorem State.pop_stack (h : 0 < s.SP.val) : (s.pop h).stack = s.stack := rfl
@[simp] theorem State.pop_SP (h : 0 < s.SP.val) : (s.pop h).SP = ⟨s.SP.val - 1, by omega⟩ := rfl
@[simp] theorem State.pop_DT (h : 0 < s.SP.val) : (s.pop h).DT = s.DT := rfl
@[simp] theorem State.pop_ST (h : 0 < s.SP.val) : (s.pop h).ST = s.ST := rfl
@[simp] theorem State.pop_key (h : 0 < s.SP.val) : (s.pop h).key = s.key := rfl
@[simp] theorem State.pop_fb (h : 0 < s.SP.val) : (s.pop h).fb = s.fb := rfl
@[simp] theorem State.pop_halt (h : 0 < s.SP.val) : (s.pop h).halt = s.halt := rfl
@[simp] theorem State.pop_draws (h : 0 < s.SP.val) : (s.pop h).draws = s.draws := rfl

/-! ### `State.consumeDraw` -/

@[simp] theorem State.consumeDraw_mem : (s.consumeDraw).mem = s.mem := rfl
@[simp] theorem State.consumeDraw_V : (s.consumeDraw).V = s.V := rfl
@[simp] theorem State.consumeDraw_I : (s.consumeDraw).I = s.I := rfl
@[simp] theorem State.consumeDraw_PC : (s.consumeDraw).PC = s.PC := rfl
@[simp] theorem State.consumeDraw_stack : (s.consumeDraw).stack = s.stack := rfl
@[simp] theorem State.consumeDraw_SP : (s.consumeDraw).SP = s.SP := rfl
@[simp] theorem State.consumeDraw_DT : (s.consumeDraw).DT = s.DT := rfl
@[simp] theorem State.consumeDraw_ST : (s.consumeDraw).ST = s.ST := rfl
@[simp] theorem State.consumeDraw_key : (s.consumeDraw).key = s.key := rfl
@[simp] theorem State.consumeDraw_fb : (s.consumeDraw).fb = s.fb := rfl
@[simp] theorem State.consumeDraw_halt : (s.consumeDraw).halt = s.halt := rfl
@[simp] theorem State.consumeDraw_draws : (s.consumeDraw).draws = s.draws + 1 := rfl

/-! ### `State.setFlag` -/

@[simp] theorem State.setFlag_mem (b : Bool) : (s.setFlag b).mem = s.mem := rfl
@[simp] theorem State.setFlag_V (b : Bool) : (s.setFlag b).V = s.V.set 15 (flagByte b) := rfl
@[simp] theorem State.setFlag_I (b : Bool) : (s.setFlag b).I = s.I := rfl
@[simp] theorem State.setFlag_PC (b : Bool) : (s.setFlag b).PC = s.PC := rfl
@[simp] theorem State.setFlag_stack (b : Bool) : (s.setFlag b).stack = s.stack := rfl
@[simp] theorem State.setFlag_SP (b : Bool) : (s.setFlag b).SP = s.SP := rfl
@[simp] theorem State.setFlag_DT (b : Bool) : (s.setFlag b).DT = s.DT := rfl
@[simp] theorem State.setFlag_ST (b : Bool) : (s.setFlag b).ST = s.ST := rfl
@[simp] theorem State.setFlag_key (b : Bool) : (s.setFlag b).key = s.key := rfl
@[simp] theorem State.setFlag_fb (b : Bool) : (s.setFlag b).fb = s.fb := rfl
@[simp] theorem State.setFlag_halt (b : Bool) : (s.setFlag b).halt = s.halt := rfl
@[simp] theorem State.setFlag_draws (b : Bool) : (s.setFlag b).draws = s.draws := rfl

end Sys2Proof.Machine
end

