-- ==== Sys2Proof/Laws/Ops.lean ====
section
/-!
SUPPORT. One lemma per shared operation that says everything it does: registers, the range check, the stack, the
fetch, the keypad scan, one sprite pixel; and the inversion of a step.
-/

namespace Sys2Proof.Machine

/-! ### Registers -/

/-- A register write changes that register and no other. -/
theorem State.getV_setV (s : State) (x : Nibble) (v : Byte) (r : Nibble) :
    (s.setV x v).getV r = if r = x then v else s.getV r := by
  show (s.V.set x.toNat v x.isLt)[r.toNat]'r.isLt = _
  rw [Vector.getElem_set]
  by_cases h : r = x
  · rw [if_pos h, if_pos (by rw [h])]
  · rw [if_neg h, if_neg (fun e => h (BitVec.eq_of_toNat_eq e.symm))]
    rfl

/-- A flag write changes `VF` and no other register. -/
theorem State.getV_setFlag (s : State) (b : Bool) (r : Nibble) :
    (s.setFlag b).getV r = if r = 0xF then flagByte b else s.getV r :=
  s.getV_setV flagReg (flagByte b) r

/-- The register load writes `V0`..`Vx` and no other register. -/
theorem State.getV_setV0Through (s : State) (x : Nibble) (f : Nat → Byte) (r : Nibble) :
    (s.setV0Through x f).getV r = if r.toNat ≤ x.toNat then f r.toNat else s.getV r := by
  show (Vector.ofFn _)[r.toNat]'r.isLt = _
  rw [Vector.getElem_ofFn]
  rfl

/-- Two states with the same registers by number have the same register file. -/
theorem State.V_ext {s t : State} (h : ∀ r, t.getV r = s.getV r) : t.V = s.V := by
  apply Vector.ext
  intro i hi
  have := h (BitVec.ofNat 4 i)
  simp only [State.getV, BitVec.toNat_ofNat] at this
  have e : i % 2 ^ 4 = i := Nat.mod_eq_of_lt hi
  simpa only [e] using this

/-- The dumped registers: `x + 1` of them, the `k`-th being `Vk`. -/
theorem State.v0Through_length (s : State) (x : Nibble) : (s.v0Through x).length = x.toNat + 1 := by
  have := x.isLt
  simp [State.v0Through]
  omega

theorem State.v0Through_getD (s : State) (x r : Nibble) (h : r.toNat ≤ x.toNat) :
    (s.v0Through x).getD r.toNat 0 = s.getV r := by
  have hr := r.isLt
  simp only [State.v0Through, State.getV, List.getD_eq_getElem?_getD]
  rw [List.getElem?_take_of_lt (by omega), Vector.getElem?_toList, Vector.getElem?_eq_getElem (by omega)]
  rfl

/-! ### The range check -/

theorem inRange_iff (a n : Nat) : inRange a n = true ↔ n = 0 ∨ a + n - 1 < 4096 := by
  simp only [inRange, Bool.or_eq_true, beq_iff_eq, decide_eq_true_eq]

/-- A range of at least one byte passes the check exactly when it ends inside memory. -/
theorem inRange_succ_iff (a n : Nat) : inRange a (n + 1) = true ↔ a + n < 4096 := by
  rw [inRange_iff]
  omega

/-! ### Memory through a state -/

theorem State.byteAt_storeBytes {s : State} (h : s.mem.wf = true) {a : Nat} {vs : List Byte}
    (ha : a + vs.length ≤ 4096) (a' : Nat) :
    (s.storeBytes a vs).byteAt a' = if a ≤ a' ∧ a' < a + vs.length then vs.getD (a' - a) 0 else s.byteAt a' :=
  Memory.read_writeBytes h ha a'

/-! ### The fetch -/

theorem fetchWord_of_lt {s : State} (h : s.PC.toNat + 1 < 4096) :
    fetchWord s = some (opcodeOfBytes (s.byteAt s.PC.toNat) (s.byteAt (s.PC.toNat + 1))) :=
  if_pos h

theorem fetchWord_eq_none_iff (s : State) : fetchWord s = none ↔ 4095 ≤ s.PC.toNat := by
  simp only [fetchWord, Config.memSize_eq]
  split <;> simp <;> omega

theorem fetchWord_lt {s : State} {w : Word} (h : fetchWord s = some w) : s.PC.toNat + 1 < 4096 := by
  simp only [fetchWord, Config.memSize_eq] at h
  split at h
  · assumption
  · cases h

/-- `PC` after the engine's advance, as a number: a fetch leaves room for it. -/
theorem advance_PC_toNat {s : State} (h : s.PC.toNat + 1 < 4096) : (s.PC + 2).toNat = s.PC.toNat + 2 := by
  simp
  omega

/-! ### What a step can be -/

/-- A step is one of three things: CYCLE while halted, a fetch that faults, or the handler of the fetched word on the
advanced state. -/
theorem step_cases (s : State) :
    (∃ c, s.halt = some c ∧ step s = .next s) ∨
    (s.halt = none ∧ fetchWord s = none ∧ step s = .next { s with halt := some .memoryAccessError }) ∨
    ∃ w, s.halt = none ∧ fetchWord s = some w ∧ step s = exec (decode w) s.advance := by
  cases hh : s.halt with
  | some c => exact .inl ⟨c, rfl, by simp only [step, hh]; rfl⟩
  | none =>
    cases hf : fetchWord s with
    | none => exact .inr (.inl ⟨rfl, rfl, by simp only [step, hh, hf]; rfl⟩)
    | some w => exact .inr (.inr ⟨w, rfl, rfl, by simp only [step, hh, hf]⟩)

theorem step_of_halted {s : State} {c : Fault} (h : s.halt = some c) : step s = .next s := by
  simp only [step, h]
  rfl

theorem step_of_fetch {s : State} {w : Word} (hh : s.halt = none) (hf : fetchWord s = some w) :
    step s = exec (decode w) s.advance := by
  simp only [step, hh, hf]

theorem step_of_fetch_fault {s : State} (hh : s.halt = none) (hf : fetchWord s = none) :
    step s = .next { s with halt := some .memoryAccessError } := by
  simp only [step, hh, hf]
  rfl

/-- A step that answers a next state, seen through CYCLE. -/
theorem perform_cycle_of_step {s t : State} (h : step s = .next t) : perform .cycle s = .next (t, cycleReply t) := by
  simp only [perform, h]

/-! ### The keypad scan -/

theorem State.lowestKey_eq_none_iff (s : State) : s.lowestKey = none ↔ ∀ k : Fin 16, s.key[k.val] = false := by
  simp only [State.lowestKey, List.findIdx?_eq_none_iff, Vector.mem_toList_iff, Vector.mem_iff_getElem]
  constructor
  · intro h k
    exact h _ ⟨k.val, k.isLt, rfl⟩
  · rintro h x ⟨i, hi, rfl⟩
    exact h ⟨i, hi⟩

theorem State.lowestKey_of_first {s : State} {k : Fin 16} (hk : s.key[k.val] = true)
    (hlt : ∀ j : Fin 16, j < k → s.key[j.val] = false) : s.lowestKey = some k.val := by
  rw [State.lowestKey, List.findIdx?_eq_some_iff_getElem]
  refine ⟨by simp, by simpa using hk, fun j hj => ?_⟩
  have := hlt ⟨j, by omega⟩ hj
  simpa using this

theorem State.lowestKey_lt {s : State} {k : Nat} (h : s.lowestKey = some k) : k < 16 := by
  rw [State.lowestKey, List.findIdx?_eq_some_iff_getElem] at h
  obtain ⟨hk, -⟩ := h
  simpa using hk

/-! ### Operand values -/

theorem addrOf_toNat (nnn : Imm12) : (addrOf nnn).toNat = nnn.toNat := by
  have := nnn.isLt
  simp [addrOf]
  omega

theorem wideOf_toNat (v : Byte) : (wideOf v).toNat = v.toNat := by
  have := v.isLt
  simp [wideOf]
  omega

theorem keyIndexOf_toNat (v : Byte) : (keyIndexOf v).toNat = v.toNat % 16 := by
  simp [keyIndexOf]

theorem glyphAddr_toNat (v : Byte) : (glyphAddr v).toNat = 0x050 + 5 * v.toNat := by
  simp [glyphAddr]
  omega

theorem tickTimer_toNat (t : Byte) : (tickTimer t).toNat = t.toNat - 1 := by
  simp only [tickTimer]
  split
  · rename_i h
    rw [h]
    rfl
  · rename_i h
    have : t.toNat ≠ 0 := fun e => h (BitVec.eq_of_toNat_eq e)
    rw [BitVec.toNat_sub]
    simp
    omega

/-! ### One sprite pixel -/

/-- A pixel outside the grid changes nothing (43_draw.md R193). -/
theorem togglePixel_outside {px py : Nat} (h : ¬(px < 64 ∧ py < 32)) (cv : Canvas) : togglePixel px py cv = cv :=
  dif_neg h

/-- A pixel inside the grid toggles its one cell, and a cell that was on is a collision (R194). -/
theorem togglePixel_inside {px py : Nat} (hx : px < 64) (hy : py < 32) (cv : Canvas) :
    (∀ q (hq : q < 2048), (togglePixel px py cv).1[q] =
      if q = py * 64 + px then !cv.1[q] else cv.1[q]) ∧
    (togglePixel px py cv).2 = (cv.2 || cv.1[py * 64 + px]'(by omega)) := by
  have h : px < 64 ∧ py < 32 := ⟨hx, hy⟩
  simp only [togglePixel, dif_pos h]
  refine ⟨fun q hq => ?_, trivial⟩
  rw [Vector.getElem_set]
  by_cases e : py * 64 + px = q
  · subst e
    simp
  · rw [if_neg e, if_neg (Ne.symm e)]

end Sys2Proof.Machine
end

