-- ==== Sys2Proof/Laws/PerInstr.lean ====
section
/-!
SUPPORT. The per-instruction family `EncodesInItsRow`: the word of a well-formed instruction lies in the row of the opcode
table that carries the instruction's mnemonic (spec/30_encoding.md R104, R106).
-/

namespace Sys2Proof.Laws.EncodesInItsRow

/-- The encoded word is covered by the instruction's own row. -/
def Statement (i : Instr) : Prop :=
  i.wellFormed = true → ∃ r ∈ opcodeTable, r.mnemonic = i.mnemonic ∧ r.covers (encode i) = true

/-- A row of the table covers a word whose examined bits are the row's pattern. -/
theorem of_row {i : Instr} (r : OpcodeRow) (hr : r ∈ opcodeTable) (hm : r.mnemonic = i.mnemonic)
    (h : encode i &&& r.mask = r.pattern) : Statement i :=
  fun _ => ⟨r, hr, hm, by rw [OpcodeRow.covers, h]; exact beq_self_eq_true _⟩

/-- The leading nibble of a word that ends in a 12-bit immediate. -/
theorem leading_imm12 (p : Nibble) (nnn : Imm12) : (p ++ nnn : Word) &&& 0xF000#16 = p ++ 0#12 := by
  rw [show (0xF000#16) = (0xF#4 ++ 0#12 : Word) from rfl, BitVec.and_append, BitVec.and_zero,
    show (0xF#4) = BitVec.allOnes 4 from rfl, BitVec.and_allOnes]

/-- The leading nibble of a word that ends in a byte. -/
theorem leading_xkk (p x : Nibble) (kk : Byte) : (p ++ x ++ kk : Word) &&& 0xF000#16 = p ++ 0#4 ++ 0#8 := by
  rw [show (0xF000#16) = (0xF#4 ++ 0#4 ++ 0#8 : Word) from rfl, BitVec.and_append, BitVec.and_append, BitVec.and_zero,
    BitVec.and_zero, show (0xF#4) = BitVec.allOnes 4 from rfl, BitVec.and_allOnes]

/-- The leading nibble and the trailing byte. -/
theorem outer_xkk (p x : Nibble) (kk : Byte) : (p ++ x ++ kk : Word) &&& 0xF0FF#16 = p ++ 0#4 ++ kk := by
  rw [show (0xF0FF#16) = (0xF#4 ++ 0#4 ++ 0xFF#8 : Word) from rfl, BitVec.and_append, BitVec.and_append, BitVec.and_zero,
    show (0xF#4) = BitVec.allOnes 4 from rfl, show (0xFF#8) = BitVec.allOnes 8 from rfl, BitVec.and_allOnes,
    BitVec.and_allOnes]

/-- The leading nibble and the trailing one of a word that ends in a byte. -/
theorem ends_xkk (p x : Nibble) (kk : Byte) : (p ++ x ++ kk : Word) &&& 0xF00F#16 = p ++ 0#4 ++ (kk &&& 0x0F#8) := by
  rw [show (0xF00F#16) = (0xF#4 ++ 0#4 ++ 0x0F#8 : Word) from rfl, BitVec.and_append, BitVec.and_append, BitVec.and_zero,
    show (0xF#4) = BitVec.allOnes 4 from rfl, BitVec.and_allOnes]

/-- The leading nibble of a word of four nibbles. -/
theorem leading_xyn (p x y n : Nibble) : (p ++ x ++ y ++ n : Word) &&& 0xF000#16 = p ++ 0#4 ++ 0#4 ++ 0#4 := by
  rw [show (0xF000#16) = (0xF#4 ++ 0#4 ++ 0#4 ++ 0#4 : Word) from rfl, BitVec.and_append, BitVec.and_append,
    BitVec.and_append, BitVec.and_zero, BitVec.and_zero, BitVec.and_zero, show (0xF#4) = BitVec.allOnes 4 from rfl,
    BitVec.and_allOnes]

/-- The leading and the trailing nibble of a word of four nibbles. -/
theorem ends_xyn (p x y n : Nibble) : (p ++ x ++ y ++ n : Word) &&& 0xF00F#16 = p ++ 0#4 ++ 0#4 ++ n := by
  rw [show (0xF00F#16) = (0xF#4 ++ 0#4 ++ 0#4 ++ 0xF#4 : Word) from rfl, BitVec.and_append, BitVec.and_append,
    BitVec.and_append, BitVec.and_zero, BitVec.and_zero, show (0xF#4) = BitVec.allOnes 4 from rfl, BitVec.and_allOnes,
    BitVec.and_allOnes]

theorem cls : Statement (.cls) :=
  of_row ⟨"CLS", 0xF00F, 0x0000⟩ (by decide) rfl (by decide)

theorem ret : Statement (.ret) :=
  of_row ⟨"RET", 0xF00F, 0x000E⟩ (by decide) rfl (by decide)

theorem jp (nnn : Imm12) : Statement (.jp nnn) :=
  of_row ⟨"JP_nnn", 0xF000, 0x1000⟩ (by decide) rfl ((leading_imm12 0x1#4 nnn).trans (by decide))

theorem call (nnn : Imm12) : Statement (.call nnn) :=
  of_row ⟨"CALL_nnn", 0xF000, 0x2000⟩ (by decide) rfl ((leading_imm12 0x2#4 nnn).trans (by decide))

theorem seImm (x : Nibble) (kk : Byte) : Statement (.seImm x kk) :=
  of_row ⟨"SE_Vx_kk", 0xF000, 0x3000⟩ (by decide) rfl ((leading_xkk 0x3#4 x kk).trans (by decide))

theorem sneImm (x : Nibble) (kk : Byte) : Statement (.sneImm x kk) :=
  of_row ⟨"SNE_Vx_kk", 0xF000, 0x4000⟩ (by decide) rfl ((leading_xkk 0x4#4 x kk).trans (by decide))

theorem seReg (x : Nibble) (y : Nibble) : Statement (.seReg x y) :=
  of_row ⟨"SE_Vx_Vy", 0xF000, 0x5000⟩ (by decide) rfl ((leading_xyn 0x5#4 x y 0).trans (by decide))

theorem ldImm (x : Nibble) (kk : Byte) : Statement (.ldImm x kk) :=
  of_row ⟨"LD_Vx_kk", 0xF000, 0x6000⟩ (by decide) rfl ((leading_xkk 0x6#4 x kk).trans (by decide))

theorem addImm (x : Nibble) (kk : Byte) : Statement (.addImm x kk) :=
  of_row ⟨"ADD_Vx_kk", 0xF000, 0x7000⟩ (by decide) rfl ((leading_xkk 0x7#4 x kk).trans (by decide))

theorem ldReg (x : Nibble) (y : Nibble) : Statement (.ldReg x y) :=
  of_row ⟨"LD_Vx_Vy", 0xF00F, 0x8000⟩ (by decide) rfl ((ends_xyn 0x8#4 x y 0x0#4).trans (by decide))

theorem orReg (x : Nibble) (y : Nibble) : Statement (.orReg x y) :=
  of_row ⟨"OR_Vx_Vy", 0xF00F, 0x8001⟩ (by decide) rfl ((ends_xyn 0x8#4 x y 0x1#4).trans (by decide))

theorem andReg (x : Nibble) (y : Nibble) : Statement (.andReg x y) :=
  of_row ⟨"AND_Vx_Vy", 0xF00F, 0x8002⟩ (by decide) rfl ((ends_xyn 0x8#4 x y 0x2#4).trans (by decide))

theorem xorReg (x : Nibble) (y : Nibble) : Statement (.xorReg x y) :=
  of_row ⟨"XOR_Vx_Vy", 0xF00F, 0x8003⟩ (by decide) rfl ((ends_xyn 0x8#4 x y 0x3#4).trans (by decide))

theorem addReg (x : Nibble) (y : Nibble) : Statement (.addReg x y) :=
  of_row ⟨"ADD_Vx_Vy", 0xF00F, 0x8004⟩ (by decide) rfl ((ends_xyn 0x8#4 x y 0x4#4).trans (by decide))

theorem sub (x : Nibble) (y : Nibble) : Statement (.sub x y) :=
  of_row ⟨"SUB_Vx_Vy", 0xF00F, 0x8005⟩ (by decide) rfl ((ends_xyn 0x8#4 x y 0x5#4).trans (by decide))

theorem shr (x : Nibble) : Statement (.shr x) :=
  of_row ⟨"SHR_Vx", 0xF00F, 0x8006⟩ (by decide) rfl ((ends_xyn 0x8#4 x 0 0x6#4).trans (by decide))

theorem subn (x : Nibble) (y : Nibble) : Statement (.subn x y) :=
  of_row ⟨"SUBN_Vx_Vy", 0xF00F, 0x8007⟩ (by decide) rfl ((ends_xyn 0x8#4 x y 0x7#4).trans (by decide))

theorem shl (x : Nibble) : Statement (.shl x) :=
  of_row ⟨"SHL_Vx", 0xF00F, 0x800E⟩ (by decide) rfl ((ends_xyn 0x8#4 x 0 0xE#4).trans (by decide))

theorem sneReg (x : Nibble) (y : Nibble) : Statement (.sneReg x y) :=
  of_row ⟨"SNE_Vx_Vy", 0xF000, 0x9000⟩ (by decide) rfl ((leading_xyn 0x9#4 x y 0).trans (by decide))

theorem ldI (nnn : Imm12) : Statement (.ldI nnn) :=
  of_row ⟨"LD_I_nnn", 0xF000, 0xA000⟩ (by decide) rfl ((leading_imm12 0xA#4 nnn).trans (by decide))

theorem jpV0 (nnn : Imm12) : Statement (.jpV0 nnn) :=
  of_row ⟨"JP_V0_nnn", 0xF000, 0xB000⟩ (by decide) rfl ((leading_imm12 0xB#4 nnn).trans (by decide))

theorem rnd (x : Nibble) (kk : Byte) : Statement (.rnd x kk) :=
  of_row ⟨"RND_Vx_kk", 0xF000, 0xC000⟩ (by decide) rfl ((leading_xkk 0xC#4 x kk).trans (by decide))

theorem drw (x : Nibble) (y : Nibble) (n : Nibble) : Statement (.drw x y n) :=
  of_row ⟨"DRW_Vx_Vy_n", 0xF000, 0xD000⟩ (by decide) rfl ((leading_xyn 0xD#4 x y n).trans (by decide))

theorem skp (x : Nibble) : Statement (.skp x) :=
  of_row ⟨"SKP_Vx", 0xF00F, 0xE00E⟩ (by decide) rfl ((ends_xkk 0xE#4 x 0x9E#8).trans (by decide))

theorem sknp (x : Nibble) : Statement (.sknp x) :=
  of_row ⟨"SKNP_Vx", 0xF00F, 0xE001⟩ (by decide) rfl ((ends_xkk 0xE#4 x 0xA1#8).trans (by decide))

theorem ldVxDt (x : Nibble) : Statement (.ldVxDt x) :=
  of_row ⟨"LD_Vx_DT", 0xF0FF, 0xF007⟩ (by decide) rfl ((outer_xkk 0xF#4 x 0x07#8).trans (by decide))

theorem ldVxK (x : Nibble) : Statement (.ldVxK x) :=
  of_row ⟨"LD_Vx_K", 0xF0FF, 0xF00A⟩ (by decide) rfl ((outer_xkk 0xF#4 x 0x0A#8).trans (by decide))

theorem ldDtVx (x : Nibble) : Statement (.ldDtVx x) :=
  of_row ⟨"LD_DT_Vx", 0xF0FF, 0xF015⟩ (by decide) rfl ((outer_xkk 0xF#4 x 0x15#8).trans (by decide))

theorem ldStVx (x : Nibble) : Statement (.ldStVx x) :=
  of_row ⟨"LD_ST_Vx", 0xF0FF, 0xF018⟩ (by decide) rfl ((outer_xkk 0xF#4 x 0x18#8).trans (by decide))

theorem addI (x : Nibble) : Statement (.addI x) :=
  of_row ⟨"ADD_I_Vx", 0xF0FF, 0xF01E⟩ (by decide) rfl ((outer_xkk 0xF#4 x 0x1E#8).trans (by decide))

theorem ldF (x : Nibble) : Statement (.ldF x) :=
  of_row ⟨"LD_F_Vx", 0xF0FF, 0xF029⟩ (by decide) rfl ((outer_xkk 0xF#4 x 0x29#8).trans (by decide))

theorem ldB (x : Nibble) : Statement (.ldB x) :=
  of_row ⟨"LD_B_Vx", 0xF0FF, 0xF033⟩ (by decide) rfl ((outer_xkk 0xF#4 x 0x33#8).trans (by decide))

theorem ldMemVx (x : Nibble) : Statement (.ldMemVx x) :=
  of_row ⟨"LD__I__Vx", 0xF0FF, 0xF055⟩ (by decide) rfl ((outer_xkk 0xF#4 x 0x55#8).trans (by decide))

theorem ldVxMem (x : Nibble) : Statement (.ldVxMem x) :=
  of_row ⟨"LD_Vx__I", 0xF0FF, 0xF065⟩ (by decide) rfl ((outer_xkk 0xF#4 x 0x65#8).trans (by decide))

/-- The catch-all row, last of the table, covers every word. -/
theorem unknown (op : Word) : Statement (.unknown op) :=
  of_row ⟨"UNKNOWN", 0x0000, 0x0000⟩ (by decide) rfl (BitVec.and_zero)

end Sys2Proof.Laws.EncodesInItsRow
end

