-- ==== Sys2Proof/Laws/Run.lean ====
section
/-!
SUPPORT. What `State.arrivedAt`, `State.atSelfJump`, `endOfRun` and `runEnd` say, one lemma for each form of their
argument.
-/

namespace Sys2Proof.Machine

theorem State.running_iff (s : State) : s.running = true ↔ s.halt = none := by
  simp only [State.running, Option.isNone_iff_eq_none]

theorem State.arrivedAt_iff (s : State) (a : Word) : s.arrivedAt a = true ↔ s.halt = none ∧ s.PC = a := by
  simp only [State.arrivedAt, Bool.and_eq_true, State.running_iff, beq_iff_eq]

theorem State.atSelfJump_iff (s : State) (a : Imm12) :
    s.atSelfJump a = true ↔ s.halt = none ∧ s.PC = addrOf a ∧ fetchWord s = some (encode (.jp a)) := by
  simp only [State.atSelfJump, Bool.and_eq_true, State.arrivedAt_iff, beq_iff_eq, and_assoc]

/-- A run that starts at the stated address ends there at once. -/
theorem endOfRun_of_arrived {a : Word} {s : State} (h : s.arrivedAt a = true) (ops : List HostOp) :
    endOfRun a ops s = some (0, s) := by
  cases ops <;> exact if_pos h

/-- A run that has not arrived and does nothing has no end. -/
theorem endOfRun_nil {a : Word} {s : State} (h : ¬s.arrivedAt a = true) : endOfRun a [] s = none :=
  if_neg h

/-- A run that has not arrived ends where the rest of it ends, one operation later. -/
theorem endOfRun_cons {a : Word} {s t : State} {op : HostOp} {r : Reply} (h : ¬s.arrivedAt a = true)
    (hp : perform op s = .next (t, r)) (ops : List HostOp) :
    endOfRun a (op :: ops) s = (endOfRun a ops t).map fun e => (e.1 + 1, e.2) := by
  rw [endOfRun, if_neg h, hp]

/-- An end after at least one operation is the end of the rest of the run from the state that operation leaves. -/
theorem endOfRun_cons_some {a : Word} {s : State} {op : HostOp} {ops : List HostOp} {e : Nat × State}
    (h : ¬s.arrivedAt a = true) (he : endOfRun a (op :: ops) s = some e) :
    ∃ t r e', perform op s = .next (t, r) ∧ endOfRun a ops t = some e' ∧ e = (e'.1 + 1, e'.2) := by
  rw [endOfRun, if_neg h] at he
  split at he
  · rename_i t r hp
    obtain ⟨e', h', rfl⟩ := Option.map_eq_some_iff.1 he
    exact ⟨t, r, e', hp, h', rfl⟩
  · cases he
  · cases he

theorem runEnd_of_halted {s : State} {c : Fault} (h : s.halt = some c) : runEnd s = .fatal c := by
  simp only [runEnd, h]

theorem runEnd_of_step {s t : State} (h : s.halt = none) (hs : step s = .next t) :
    runEnd s = if t = s then .fixedPoint else .hostStops := by
  simp only [runEnd, h, hs]

end Sys2Proof.Machine
end

