-- ==== Sys2Proof/Tests/Slice0.lean ====
section
/-!
SUPPORT. Tests: the checks of `WellFormed`, words written out from the spec's encodings, one step per vector of
spec/95_test_vectors.md (the vector's id stands in each comment; every expected value is the vector's), and for every
statement with hypotheses a witness that meets them, at the boundary where there is one.
-/

namespace Sys2Proof.Tests

open Sys2Proof.Machine
open Sys2Proof.Claims

/-! ### Small states -/

/-- The state after RESET with some registers set. -/
def regs (vs : List (Nibble × Byte)) : State := vs.foldl (fun s p => s.setV p.1 p.2) State.reset

/-- `s` with the opcode `w` at its `PC`. -/
def withOpcode (w : Word) (s : State) : State := { s with mem := s.mem.writeBytes s.PC.toNat (bytesOfOpcode w) }

/-- `s` with `I` and the bytes from there on. -/
def withData (i : Word) (bytes : List Byte) (s : State) : State := { s with I := i, mem := s.mem.writeBytes i.toNat bytes }

/-- `s` with one key pressed. -/
def withKey (k : Nat) (s : State) : State := setKeyOp k true s

/-- `s` with one framebuffer cell on. -/
def withPixel (p : Fin 2048) (s : State) : State := { s with fb := s.fb.set p.val true }

/-- `s` with the return address `pc` in every stack entry and `SP` at `n`. -/
def withStack (n : Fin 17) (pc : Word) (s : State) : State := { s with SP := n, stack := Vector.replicate 16 pc }

/-- What `f` sees after one step that answers a next state. -/
def after (f : State → α) (s : State) : Option α :=
  match step s with
  | .next t => some (f t)
  | .fault _ => none
  | .refused _ => none

/-! ### Well-formed instructions -/

/-- An UNKNOWN with the word of an instruction is ill-formed: one word for each clause of R99, and one of a family
without unknown words. -/
theorem test_wellFormed_refuses :
    (Instr.unknown 0x00E0).wellFormed = false ∧ (Instr.unknown 0x8ABE).wellFormed = false ∧
    (Instr.unknown 0xE19E).wellFormed = false ∧ (Instr.unknown 0xF165).wellFormed = false ∧
    (Instr.unknown 0x1234).wellFormed = false := by decide

/-- The unknown words of E6, E16, E25, E27 are well-formed. -/
theorem test_wellFormed_accepts :
    (Instr.unknown 0x0001).wellFormed = true ∧ (Instr.unknown 0x8AB8).wellFormed = true ∧
    (Instr.unknown 0xE19F).wellFormed = true ∧ (Instr.unknown 0xF117).wellFormed = true := by decide

/-! ### Decoding -/

/-- E1 to E7. -/
theorem test_decode_family0 :
    decode 0x00E0 = .cls ∧ decode 0x0000 = .cls ∧ decode 0x0120 = .cls ∧ decode 0x00EE = .ret ∧ decode 0x0ABE = .ret ∧
    decode 0x0001 = .unknown 0x0001 ∧ decode 0x00EF = .unknown 0x00EF := by decide

/-- E8 to E10, F13, E11 to E13, E19. -/
theorem test_decode_control :
    decode 0x1234 = .jp 0x234 ∧ decode 0x2FFF = .call 0xFFF ∧ decode 0x3A7F = .seImm 0xA 0x7F ∧
    decode 0x4143 = .sneImm 1 0x43 ∧ decode 0x5120 = .seReg 1 2 ∧ decode 0x512F = .seReg 1 2 ∧
    decode 0x9AB7 = .sneReg 0xA 0xB ∧ decode 0xBFFF = .jpV0 0xFFF := by decide

/-- A1, A2, A28, A17, E20. -/
theorem test_decode_immediate :
    decode 0x6AFF = .ldImm 0xA 0xFF ∧ decode 0x7101 = .addImm 1 0x01 ∧ decode 0xAFFF = .ldI 0xFFF ∧
    decode 0xC30F = .rnd 3 0x0F ∧ decode 0xD125 = .drw 1 2 5 := by decide

/-- E14 to E18, A5 to A7, A9, A14, A25. -/
theorem test_decode_family8 :
    decode 0x8AB0 = .ldReg 0xA 0xB ∧ decode 0x8121 = .orReg 1 2 ∧ decode 0x8122 = .andReg 1 2 ∧
    decode 0x8123 = .xorReg 1 2 ∧ decode 0x8124 = .addReg 1 2 ∧ decode 0x8125 = .sub 1 2 ∧ decode 0x8126 = .shr 1 ∧
    decode 0x8AB7 = .subn 0xA 0xB ∧ decode 0x8ABE = .shl 0xA ∧ decode 0x8AB8 = .unknown 0x8AB8 ∧
    decode 0x8ABF = .unknown 0x8ABF := by decide

/-- E21 to E25. -/
theorem test_decode_familyE :
    decode 0xE19E = .skp 1 ∧ decode 0xE10E = .skp 1 ∧ decode 0xE1A1 = .sknp 1 ∧ decode 0xE1F1 = .sknp 1 ∧
    decode 0xE19F = .unknown 0xE19F := by decide

/-- E26 to E31, T2, T3, M1, M3, M8, M12. -/
theorem test_decode_familyF :
    decode 0xF107 = .ldVxDt 1 ∧ decode 0xF00A = .ldVxK 0 ∧ decode 0xF015 = .ldDtVx 0 ∧ decode 0xF518 = .ldStVx 5 ∧
    decode 0xF21E = .addI 2 ∧ decode 0xF029 = .ldF 0 ∧ decode 0xF333 = .ldB 3 ∧ decode 0xF255 = .ldMemVx 2 ∧
    decode 0xFF65 = .ldVxMem 0xF ∧ decode 0xF117 = .unknown 0xF117 ∧ decode 0xFFFF = .unknown 0xFFFF := by decide

/-- The canonical words of the rows with ignored bits (R98, R106), and R67's byte order: `12 34` is `0x1234`. -/
theorem test_encode :
    encode .cls = 0x00E0 ∧ encode .ret = 0x00EE ∧ encode (.seReg 1 2) = 0x5120 ∧ encode (.shr 1) = 0x8106 ∧
    encode (.skp 1) = 0xE19E ∧ encode (.sknp 1) = 0xE1A1 ∧ encodeBytes (.jp 0x234) = [0x12, 0x34] := by decide

/-- A byte stream: two bytes make an instruction (R91), the rest is given back, and one byte or none is rejected. -/
theorem test_decodeBytes :
    decodeBytes [0x12, 0x34, 0x60] = .ok (.jp 0x234, [0x60]) ∧ decodeBytes [0x12] = .error .truncated ∧
    decodeBytes [] = .error .truncated := by
  refine ⟨?_, rfl, rfl⟩
  exact decodeBytes_bytesOfOpcode 0x1234 [0x60]

/-- The host's way in, on rows of spec/opcode_table.json. -/
theorem test_decodeTableWord :
    decodeTableWord 16 0x00E0 = some .cls ∧ decodeTableWord 16 0xD125 = some (.drw 1 2 5) ∧
    decodeTableWord 16 0x0001 = some (.unknown 0x0001) ∧
    after State.PC (State.reset.withFetchWord 16 0x1234) = some 0x234 := by decide

/-! ### The engine -/

/-- E33: an unknown word only advances `PC`. -/
theorem test_unknown : after (fun t => (t.PC, t.halt)) (withOpcode 0x801F State.reset) = some (0x202, none) := by decide

/-- E34 and E38: the last fetchable address, and an odd `PC`. -/
theorem test_fetch :
    after (fun t => (t.PC, t.getV 0)) (withOpcode 0x6007 { State.reset with PC := 0xFFE }) = some (0x1000, 7) ∧
    after (fun t => (t.PC, t.getV 0xA)) (withOpcode 0x6A55 { State.reset with PC := 0x201 }) = some (0x203, 0x55) := by
  decide

/-- E35 to E37: the fetch faults, `PC` stays, and the next cycle changes nothing. -/
theorem test_fetch_fault :
    after (fun t => (t.PC, t.halt)) { State.reset with PC := 0xFFF } = some (0xFFF, some .memoryAccessError) ∧
    after (fun t => (t.PC, t.halt)) { State.reset with PC := 0x1000, halt := some .memoryAccessError } =
      some (0x1000, some .memoryAccessError) := by decide

/-! ### Control flow -/

/-- F1, looking at cells near the start. -/
theorem test_cls :
    after (fun t => (t.fb[0], t.fb[64], t.PC)) (withOpcode 0x00E0 (withPixel 0 (withPixel 64 State.reset))) =
      some (false, false, 0x202) := by decide

/-- F3. -/
theorem test_ret :
    after (fun t => (t.SP, t.PC, t.stack[1])) (withOpcode 0x00EE (withStack 2 0xABC State.reset)) =
      some (1, 0xABC, 0xABC) := by decide

/-- F2. -/
theorem test_ret_underflow :
    after (fun t => (t.SP, t.PC, t.halt)) (withOpcode 0x00EE State.reset) =
      some (0, 0x202, some .stackUnderflow) := by decide

/-- F5. -/
theorem test_jp : after State.PC (withOpcode 0x1FFF State.reset) = some 0xFFF := by decide

/-- F6. -/
theorem test_call :
    after (fun t => (t.SP, t.PC, t.stack[15], t.stack[14])) (withOpcode 0x2300 (withStack 15 0 State.reset)) =
      some (16, 0x300, 0x202, 0) := by decide

/-- F7. -/
theorem test_call_overflow :
    after (fun t => (t.SP, t.PC, t.stack[15], t.halt)) (withOpcode 0x2300 (withStack 16 0 State.reset)) =
      some (16, 0x202, 0, some .stackOverflow) := by decide

/-- F8 and F9. -/
theorem test_jpV0 :
    after State.PC (withOpcode 0xBFFF (regs [(0, 0xFF)])) = some 0x10FE ∧
    after State.PC (withOpcode 0xB300 (regs [(0, 4), (3, 0x80)])) = some 0x304 := by decide

/-- F10 and F11. -/
theorem test_seImm :
    after State.PC (withOpcode 0x3142 (regs [(1, 0x42)])) = some 0x204 ∧
    after State.PC (withOpcode 0x3143 (regs [(1, 0x42)])) = some 0x202 := by decide

/-- F12 and F13. -/
theorem test_sneImm :
    after State.PC (withOpcode 0x4142 (regs [(1, 0x42)])) = some 0x202 ∧
    after State.PC (withOpcode 0x4143 (regs [(1, 0x42)])) = some 0x204 := by decide

/-- F14 and F15. -/
theorem test_seReg :
    after State.PC (withOpcode 0x5120 (regs [(1, 7), (2, 7)])) = some 0x204 ∧
    after State.PC (withOpcode 0x5120 (regs [(1, 7), (2, 8)])) = some 0x202 := by decide

/-- F17 and F18. -/
theorem test_sneReg :
    after State.PC (withOpcode 0x9120 (regs [(1, 7), (2, 8)])) = some 0x204 ∧
    after State.PC (withOpcode 0x9330 (regs [(3, 7)])) = some 0x202 := by decide

/-! ### Arithmetic and logic -/

/-- What a test of a register instruction looks at: `V1`, `V2`, `VF`. -/
def v12F (t : State) : Byte × Byte × Byte := (t.getV 1, t.getV 2, t.getV 0xF)

/-- A1. -/
theorem test_ldImm : after (fun t => t.getV 0xA) (withOpcode 0x6AFF State.reset) = some 0xFF := by decide

/-- A2. -/
theorem test_addImm : after v12F (withOpcode 0x7101 (regs [(1, 0xFF), (15, 7)])) = some (0, 0, 7) := by decide

/-- A4. -/
theorem test_ldReg : after v12F (withOpcode 0x8120 (regs [(1, 1), (2, 0x3C)])) = some (0x3C, 0x3C, 0) := by decide

/-- A5. -/
theorem test_orReg : after v12F (withOpcode 0x8121 (regs [(1, 0xF0), (2, 0x0F), (15, 9)])) = some (0xFF, 0x0F, 9) := by
  decide

/-- A6. -/
theorem test_andReg : after v12F (withOpcode 0x8122 (regs [(1, 0xF0), (2, 0x3C)])) = some (0x30, 0x3C, 0) := by decide

/-- A7. -/
theorem test_xorReg : after v12F (withOpcode 0x8123 (regs [(1, 0xF0), (2, 0x3C)])) = some (0xCC, 0x3C, 0) := by decide

/-- S1 and A10. -/
theorem test_addReg :
    after v12F (withOpcode 0x8124 (regs [(1, 0xFF), (2, 1)])) = some (0, 1, 1) ∧
    after v12F (withOpcode 0x8124 (regs [(1, 0x7F), (2, 0x80)])) = some (0xFF, 0x80, 0) := by decide

/-- A12 and A13: `VF` as an operand. -/
theorem test_addReg_VF :
    after v12F (withOpcode 0x8F14 (regs [(1, 0x20), (15, 0xF0)])) = some (0x20, 0, 0x10) ∧
    after v12F (withOpcode 0x81F4 (regs [(1, 0x20), (15, 0xF0)])) = some (0x10, 0, 1) := by decide

/-- S2 and A15. -/
theorem test_sub :
    after v12F (withOpcode 0x8125 (regs [(1, 5), (2, 10)])) = some (0xFB, 10, 0) ∧
    after v12F (withOpcode 0x8125 (regs [(1, 7), (2, 7)])) = some (0, 7, 0) := by decide

/-- A29 and A30 (decision D6). -/
theorem test_sub_VF :
    after v12F (withOpcode 0x8F15 (regs [(1, 3), (15, 5)])) = some (3, 0, 0xFE) ∧
    after v12F (withOpcode 0x81F5 (regs [(1, 9), (15, 4)])) = some (8, 0, 1) := by decide

/-- A21 and A22. -/
theorem test_subn :
    after v12F (withOpcode 0x8127 (regs [(1, 5), (2, 10)])) = some (5, 10, 1) ∧
    after v12F (withOpcode 0x8127 (regs [(1, 10), (2, 5)])) = some (0xFB, 5, 0) := by decide

/-- A31 and A32 (decision D6). -/
theorem test_subn_VF :
    after v12F (withOpcode 0x8F17 (regs [(1, 7), (15, 2)])) = some (7, 0, 6) ∧
    after v12F (withOpcode 0x81F7 (regs [(1, 4), (15, 9)])) = some (0xFD, 0, 1) := by decide

/-- A24 and A33 (A33 by decision D6). -/
theorem test_shr :
    after v12F (withOpcode 0x8106 (regs [(1, 5)])) = some (2, 0, 1) ∧
    after v12F (withOpcode 0x8F06 (regs [(15, 0xFF)])) = some (0, 0, 0) := by decide

/-- A26 and A34 (A34 by decision D6). -/
theorem test_shl :
    after v12F (withOpcode 0x810E (regs [(1, 0x81)])) = some (2, 0, 1) ∧
    after v12F (withOpcode 0x8F0E (regs [(15, 0x80)])) = some (0, 0, 2) := by decide

/-- A28. -/
theorem test_ldI : after State.I (withOpcode 0xAFFF State.reset) = some 0x0FFF := by decide

/-- A17: `V3 = 0x10` becomes `0x10` plus the masked draw, which for the vector's draw `0xA7` is `0x17`. -/
theorem test_rnd :
    exec (.rnd 3 0x0F) (regs [(3, 0x10)]) =
      .next { regs [(3, 0x10 + (Config.randomByte 0 &&& 0x0F))] with draws := 1 } ∧
    (0x10 : Byte) + (0xA7 &&& 0x0F) = 0x17 := ⟨rfl, by decide⟩

/-- A19: with `kk = 0` the register keeps its value whatever is drawn. -/
theorem test_rnd_zero_mask : after (fun t => t.getV 3) (withOpcode 0xC300 (regs [(3, 0x55)])) = some 0x55 := by
  show some ((0x55 : Byte) + (Config.randomByte 0 &&& 0#8)) = some 0x55
  rw [BitVec.and_zero]
  rfl

/-! ### Draw -/

/-- W2 and W3: the origin wraps, the pixels clip. -/
theorem test_drw_origin :
    after (fun t => (t.fb[130], t.fb[131], t.fb[132], t.fb[133], t.getV 0xF))
      (withOpcode 0xD011 (withData 0x300 [0xC0] (regs [(0, 67), (1, 34)]))) = some (false, true, true, false, 0) ∧
    after (fun t => (t.fb[59], t.fb[60], t.fb[63], t.fb[64], t.fb[0]))
      (withOpcode 0xD011 (withData 0x300 [0xFF] (regs [(0, 60)]))) = some (false, true, true, false, false) := by decide

/-- W5 (collision) and W9 (the range is checked before anything is written). -/
theorem test_drw_collision :
    after (fun t => (t.fb[0], t.fb[1], t.getV 0xF)) (withOpcode 0xD011 (withData 0x300 [0xC0] (withPixel 0 State.reset))) =
      some (false, true, 1) ∧
    after (fun t => (t.getV 0xF, t.PC, t.halt)) (withOpcode 0xD013 { regs [(15, 1)] with I := 0xFFE }) =
      some (1, 0x202, some .memoryAccessError) := by decide

/-! ### Keypad and timers -/

/-- K1, K2 and K5 (K5 by decision D12). -/
theorem test_skp :
    after State.PC (withOpcode 0xE19E (withKey 3 (regs [(1, 3)]))) = some 0x204 ∧
    after State.PC (withOpcode 0xE19E (regs [(1, 3)])) = some 0x202 ∧
    after State.PC (withOpcode 0xE19E (withKey 3 (regs [(1, 0x13)]))) = some 0x204 := by decide

/-- K3 and K4. -/
theorem test_sknp :
    after State.PC (withOpcode 0xE1A1 (withKey 3 (regs [(1, 3)]))) = some 0x202 ∧
    after State.PC (withOpcode 0xE1A1 (regs [(1, 3)])) = some 0x204 := by decide

/-- K6 and K8 (K8 by decision D13). -/
theorem test_ldVxK :
    after (fun t => (t.PC, t.getV 1)) (withOpcode 0xF10A (regs [(1, 0x55)])) = some (0x200, 0x55) ∧
    after (fun t => (t.PC, t.getV 1)) (withOpcode 0xF10A (withKey 3 (withKey 7 State.reset))) = some (0x202, 3) := by
  decide

/-- T1, T2, T3. -/
theorem test_timers :
    after (fun t => (t.getV 2, t.DT)) (withOpcode 0xF207 { State.reset with DT := 0x3A }) = some (0x3A, 0x3A) ∧
    after State.DT (withOpcode 0xF015 (regs [(0, 0x3C)])) = some 0x3C ∧
    after State.ST (withOpcode 0xF518 (regs [(5, 2)])) = some 2 := by decide

/-- T4, T5, T7. -/
theorem test_tick : tickTimer 2 = 1 ∧ tickTimer 1 = 0 ∧ tickTimer 0 = 0 ∧ tickTimer 0xFF = 0xFE := by decide

/-! ### Memory, BCD, index -/

/-- M2 and M2b (M2b by decision D16). -/
theorem test_addI :
    after (fun t => (t.I, t.getV 0xF)) (withOpcode 0xF21E { regs [(2, 1)] with I := 0x0FFF }) = some (0x1000, 0) ∧
    after State.I (withOpcode 0xF21E { regs [(2, 2)] with I := 0xFFFF }) = some 1 := by decide

/-- M3 and M6. -/
theorem test_ldF :
    after State.I (withOpcode 0xF029 (regs [(0, 7)])) = some 0x073 ∧
    after State.I (withOpcode 0xF029 (regs [(0, 0xFF)])) = some 0x54B := by decide

/-- S6. -/
theorem test_ldB :
    after (fun t => (t.byteAt 0x300, t.byteAt 0x301, t.byteAt 0x302))
      (withOpcode 0xF033 { regs [(0, 0xEA)] with I := 0x300 }) = some (2, 3, 4) := by decide

/-- M10 and M11. -/
theorem test_ldB_edge :
    after (fun t => (t.byteAt 0xFFD, t.byteAt 0xFFF, t.halt)) (withOpcode 0xF333 { regs [(3, 7)] with I := 0xFFD }) =
      some (0, 7, none) ∧
    after (fun t => (t.byteAt 0xFFF, t.PC, t.halt)) (withOpcode 0xF333 { regs [(3, 7)] with I := 0xFFE }) =
      some (0, 0x202, some .memoryAccessError) := by decide

/-- M12. -/
theorem test_ldMemVx :
    after (fun t => (t.byteAt 0x400, t.byteAt 0x401, t.byteAt 0x402, t.byteAt 0x403, t.I))
      (withOpcode 0xF255 { regs [(0, 0x11), (1, 0x22), (2, 0x33), (3, 0x44)] with I := 0x400 }) =
      some (0x11, 0x22, 0x33, 0, 0x400) := by decide

/-- M18 (decision D14). -/
theorem test_ldMemVx_glyphs :
    after (fun t => (t.byteAt 0x050, t.byteAt 0x051)) (withOpcode 0xF055 { regs [(0, 0xAA)] with I := 0x050 }) =
      some (0xAA, 0x90) := by decide

/-- M15. -/
theorem test_ldVxMem :
    after (fun t => (t.getV 0, t.getV 1, t.getV 2, t.getV 3, t.I))
      (withOpcode 0xF265 (withData 0x300 [2, 3, 4, 5] (regs [(3, 0x77)]))) = some (2, 3, 4, 0x77, 0x300) := by decide

/-- M16 and M17. -/
theorem test_ldVxMem_edge :
    after (fun t => t.getV 0) (withOpcode 0xF065 (withData 0xFFF [0x5A] State.reset)) = some 0x5A ∧
    after (fun t => (t.getV 0, t.getV 1, t.halt)) (withOpcode 0xF165 { regs [(0, 1), (1, 2)] with I := 0xFFF }) =
      some (1, 2, some .memoryAccessError) := by decide

/-! ### Host operations and the canonical form -/

/-- H1, H4: LOAD of two bytes and of none. -/
theorem test_load :
    (loadOp [0x12, 0x00] State.reset).1.byteAt 0x200 = 0x12 ∧ (loadOp [0x12, 0x00] State.reset).1.byteAt 0x202 = 0 ∧
    (loadOp [0x12, 0x00] State.reset).2 = .ok ∧ (loadOp [] State.reset).1 = State.reset := by
  refine ⟨by decide, by decide, rfl, rfl⟩

/-- H3: an image of 3585 bytes fails. -/
theorem test_load_error (s : State) : (loadOp (List.replicate 3585 0xAB) s).2 = .loadError := by
  rw [loadOp_of_lt (by rw [List.length_replicate]; decide)]

/-- H5 and H7 (H7 by decision D22). -/
theorem test_setKey :
    (setKeyOp 5 true State.reset).key[5] = true ∧ (setKeyOp 5 true State.reset).key[15] = false ∧
    (setKeyOp 20 true State.reset).key[15] = true := by decide

/-- A store of the reset contents takes the entry out again, so equal memories are equal data. -/
theorem test_memory_canonical :
    Memory.write (Memory.write [] 0x300 7) 0x300 0 = [] ∧ Memory.write [] 0x050 0xF0 = [] ∧
    Memory.wf (Memory.write (Memory.write [] 0x300 7) 0x050 0) = true ∧ Memory.wf [(0x300, 0)] = false ∧
    Memory.wf [(0x300, 1), (0x200, 1)] = false ∧ State.reset.mem.wf = true := by decide

/-! ### The end of a run -/

/-- R311: a run ends at its first state with `PC` at the stated address, whatever comes after it; a halted state is no
end (R271). The program is `JP 0x204`. -/
theorem test_endOfRun :
    (endOfRun 0x204 [.tick, .cycle, .tick] (withOpcode 0x1204 State.reset)).map (fun e => (e.1, e.2.PC)) =
      some (2, 0x204) ∧
    (endOfRun 0x200 [.tick] (withOpcode 0x1204 State.reset)).map Prod.fst = some 0 ∧
    endOfRun 0x206 [.tick, .cycle] (withOpcode 0x1204 State.reset) = none ∧
    endOfRun 0x200 [] { State.reset with halt := some .stackOverflow } = none := by
  refine ⟨by decide, by decide, rfl, rfl⟩

/-- F4: a jump to itself is a fixed point (R311). -/
theorem test_runEnd :
    runEnd (withOpcode 0x1200 State.reset) = .fixedPoint ∧
    runEnd { State.reset with halt := some .stackOverflow } = .fatal .stackOverflow := by
  refine ⟨?_, rfl⟩
  rw [runEnd_of_step (t := withOpcode 0x1200 State.reset) rfl]
  · exact if_pos rfl
  · rw [step_of_fetch (w := 0x1200) rfl (by decide)]
    rfl

/-! ### Witnesses: the hypotheses of every statement that has some -/

theorem witness_DecodeInvertsEncode :
    (Instr.unknown 0xF117).wellFormed = true ∧ (Instr.drw 1 2 5).wellFormed = true := by decide

theorem witness_IgnoredBitsDoNotMatter :
    (0x00E0 : Word) &&& significantBits (decode 0x00E0) = 0x0AB0 &&& significantBits (decode 0x00E0) ∧
    (0xE19E : Word) &&& significantBits (decode 0xE19E) = 0xE10E &&& significantBits (decode 0xE19E) := by decide

/-- Words under the masks of the rows whose rule a statement gives with its encoding, one for each of the three masks;
the rows of stage 1 at two operands. -/
theorem witness_Encoded :
    (0x1234 : Word) &&& 0xF000 = 0x1000 ∧ (0x1FFF : Word) &&& 0xF000 = 0x1000 ∧ (0x512F : Word) &&& 0xF000 = 0x5000 ∧
    (0x0120 : Word) &&& 0xF00F = 0x0000 ∧ (0x8124 : Word) &&& 0xF00F = 0x8004 ∧
    (0xF207 : Word) &&& 0xF0FF = 0xF007 := by decide

theorem witness_FetchIsBigEndian : ({ State.reset with PC := 0xFFE } : State).PC.toNat + 1 < 4096 := by decide

/-- The state of E34. -/
def lastWord : State := withOpcode 0x6007 { State.reset with PC := 0xFFE }

theorem witness_StepRunsTheDecodedInstruction :
    lastWord.halt = none ∧ lastWord.PC.toNat + 1 < 4096 ∧ lastWord.byteAt lastWord.PC.toNat = 0x60 ∧
    lastWord.byteAt (lastWord.PC.toNat + 1) = 0x07 ∧ decodeBytes [0x60, 0x07] = .ok (.ldImm 0 7, []) :=
  ⟨rfl, by decide, by decide, by decide, rfl⟩

theorem witness_FetchFaultsAtTheEdgeOfMemory :
    ({ State.reset with PC := 4095 } : State).halt = none ∧ 4095 ≤ ({ State.reset with PC := 4095 } : State).PC.toNat ∧
    ¬4095 ≤ ({ State.reset with PC := 4094 } : State).PC.toNat := by decide

/-- A halted state. -/
def halted : State := { State.reset with halt := some .stackOverflow }

theorem witness_HaltedCycleChangesNothing : halted.halt = some .stackOverflow := rfl

theorem witness_OnlyResetClearsTheLatch :
    halted.halt = some .stackOverflow ∧ perform .tick halted = .next (tickOp halted, .nothing) ∧
    perform .reset halted = .next (resetOp halted, .nothing) ∧ perform .cycle halted = .next (halted, .fault .stackOverflow) :=
  ⟨rfl, rfl, rfl, rfl⟩

/-- Both cases: CALL with a full stack raises, CLS does not. -/
theorem witness_EveryHandlerCompletesOrRaisesItsCondition :
    raisedBy (.call 0x300) (withStack 16 0 State.reset) = some .stackOverflow ∧
    raisedBy (.call 0x300) (withStack 15 0 State.reset) = none ∧ raisedBy .ret State.reset = some .stackUnderflow ∧
    raisedBy (.ldB 0) { State.reset with I := 0xFFE } = some .memoryAccessError ∧
    raisedBy (.ldB 0) { State.reset with I := 0xFFD } = none := by decide

theorem witness_CycleReportsOkOrTheCondition :
    lastWord.halt = none ∧ fetchWord lastWord = some 0x6007 ∧ (withOpcode 0x00EE State.reset).halt = none ∧
    fetchWord (withOpcode 0x00EE State.reset) = some 0x00EE ∧
    raisedBy (decode 0x00EE) { withOpcode 0x00EE State.reset with PC := 0x202 } = some .stackUnderflow := by decide

theorem witness_PcAfterEveryCycle : lastWord.halt = none ∧ fetchWord lastWord = some 0x6007 := by decide

theorem witness_UnknownOpcodeIsANoOp :
    (withOpcode 0x801F State.reset).halt = none ∧ fetchWord (withOpcode 0x801F State.reset) = some 0x801F ∧
    isUnknownWord 0x801F = true := by decide

theorem witness_RetPopsThePc :
    0 < (withStack 1 0x206 State.reset).SP.val ∧ 0 < (withStack 16 0x206 State.reset).SP.val ∧ State.reset.SP.val = 0 := by
  decide

theorem witness_CallPushesThePc :
    (withStack 15 0 State.reset).SP.val < 16 ∧ (withStack 16 0 State.reset).SP.val = 16 := by decide

theorem witness_CallThenRetRestores : State.reset.SP.val < 16 ∧ (withStack 15 0 State.reset).SP.val < 16 := by decide

theorem witness_DrwCompositesTheSprite :
    ((0 : Nibble).toNat = 0 ∨ ({ State.reset with I := 0x1234 } : State).I.toNat + (0 : Nibble).toNat - 1 < 4096) ∧
    ((3 : Nibble).toNat = 0 ∨ ({ State.reset with I := 0xFFD } : State).I.toNat + (3 : Nibble).toNat - 1 < 4096) := by
  decide

theorem witness_DrawingTwiceErases :
    (0 : Nibble) ≠ 0xF ∧ (1 : Nibble) ≠ 0xF ∧
    ((5 : Nibble).toNat = 0 ∨ ({ State.reset with I := 0x050 } : State).I.toNat + (5 : Nibble).toNat - 1 < 4096) ∧
    ∀ px py, pixel ({ State.reset with I := 0x050 } : State).fb px py = false :=
  ⟨by decide, by decide, by decide, fun _ _ => Vector.getElem_replicate _⟩

theorem witness_KeyWaitStoresTheLowestKeyOrRewinds :
    (∀ k : Fin 16, State.reset.key[k.val] = false) ∧
    (withKey 3 (withKey 7 State.reset)).key[(3 : Fin 16).val] = true ∧
    ∀ j : Fin 16, j < 3 → (withKey 3 (withKey 7 State.reset)).key[j.val] = false := by decide

theorem witness_KeyWaitPollsWithoutChange :
    (withOpcode 0xF50A State.reset).halt = none ∧ fetchWord (withOpcode 0xF50A State.reset) = some 0xF50A ∧
    decode 0xF50A = .ldVxK 5 ∧ ∀ k : Fin 16, (withOpcode 0xF50A State.reset).key[k.val] = false := by decide

theorem witness_CyclesMoveTimersOnlyByTheirInstructions :
    after State.DT (withOpcode 0xF015 (regs [(0, 0x3C)])) = some 0x3C ∧ (regs [(0, 0x3C)]).DT = 0 ∧
    after State.ST (withOpcode 0xF018 (regs [(0, 0x3C)])) = some 0x3C ∧ (regs [(0, 0x3C)]).ST = 0 := by decide

theorem witness_BcdStoreWritesThreeDigits :
    ({ State.reset with I := 0xFFD } : State).mem.wf = true ∧ ({ State.reset with I := 0xFFD } : State).I.toNat + 2 < 4096 ∧
    4096 ≤ ({ State.reset with I := 0xFFE } : State).I.toNat + 2 := by decide

theorem witness_RegisterDumpWritesV0ThroughVx :
    ({ State.reset with I := 0xFF0 } : State).mem.wf = true ∧
    ({ State.reset with I := 0xFF0 } : State).I.toNat + (15 : Nibble).toNat < 4096 ∧
    4096 ≤ ({ State.reset with I := 0xFF1 } : State).I.toNat + (15 : Nibble).toNat := by decide

theorem witness_RegisterLoadReadsV0ThroughVx :
    ({ State.reset with I := 0xFFF } : State).I.toNat + (0 : Nibble).toNat < 4096 ∧
    4096 ≤ ({ State.reset with I := 0xFFF } : State).I.toNat + (1 : Nibble).toNat := by decide

theorem witness_StoredCodeIsFetched :
    ({ State.reset with I := 0x200 } : State).mem.wf = true ∧
    ({ State.reset with I := 0x200 } : State).I = ({ State.reset with I := 0x200 } : State).PC ∧ 1 ≤ (1 : Nibble).toNat ∧
    ({ State.reset with I := 0x200 } : State).I.toNat + (1 : Nibble).toNat < 4096 := by decide

theorem witness_LoadCopiesTheImage :
    State.reset.mem.wf = true ∧ (List.replicate 3584 (0xAB : Byte)).length ≤ 3584 ∧
    3584 < (List.replicate 3585 (0xAB : Byte)).length :=
  ⟨rfl, by rw [List.length_replicate], by rw [List.length_replicate]; decide⟩

theorem witness_EveryStepKeepsTheInvariant :
    lastWord.Inv ∧ step lastWord = .next ((lastWord.advance).setV 0 7) ∧
    (withStack 16 0x1000 { State.reset with PC := 0x10FE }).Inv := by
  refine ⟨by decide, ?_, by decide⟩
  rw [step_of_fetch (w := 0x6007) rfl (by decide)]
  rfl

theorem witness_EveryRunKeepsTheInvariant :
    State.reset.Inv ∧ performAll [.tick, .reset] State.reset = .next (resetOp (tickOp State.reset), [.nothing, .nothing]) :=
  ⟨by decide, rfl⟩

theorem witness_InstructionsWriteOnlyWhatTheMatrixMarks :
    exec (.ldI 0x300) State.reset = .next { State.reset with I := 0x300 } ∧ mayWriteV (.ldI 0x300) 0 = false ∧
    mayWritePC (.ldI 0x300) = false ∧
    exec (.jp 0x300) State.reset = .next { State.reset with PC := 0x300 } ∧ mayWriteI (.jp 0x300) = false :=
  ⟨rfl, rfl, rfl, rfl, rfl⟩

theorem witness_SoundTimerIsNotObservable : step lastWord = .next ((lastWord.advance).setV 0 7) :=
  witness_EveryStepKeepsTheInvariant.2.1

/-- A RET about to run with one return address on the stack. -/
def returning : State := withOpcode 0x00EE (withStack 1 0x206 State.reset)

/-- `returning` with another value in the popped entry 5. -/
theorem witness_PoppedEntriesAreNotObservable :
    (∀ j : Fin 16, j.val < returning.SP.val →
      ({ returning with stack := returning.stack.set 5 7 } : State).stack[j.val] = returning.stack[j.val]) ∧
    ({ returning with stack := returning.stack.set 5 7 } : State).stack[5] = 7 ∧ returning.stack[5] = 0x206 ∧
    step returning = .next { returning with PC := 0x206, SP := 0 } := by
  refine ⟨by decide, by decide, by decide, ?_⟩
  rw [step_of_fetch (w := 0x00EE) rfl (by decide)]
  rfl

theorem witness_FixedPointsAreSelfJumpsAndKeyWaits :
    (withOpcode 0x1200 State.reset).halt = none ∧ fetchWord (withOpcode 0x1200 State.reset) = some 0x1200 ∧
    decode 0x1200 = .jp 0x200 ∧ (0x200 : Imm12).toNat = (withOpcode 0x1200 State.reset).PC.toNat := by decide

theorem witness_EndOfRunIsTheFirstArrival :
    endOfRun 0x200 [.tick] State.reset = some (0, State.reset) ∧ performAll ([.tick] : List HostOp) State.reset =
      .next (tickOp State.reset, [.nothing]) := ⟨rfl, rfl⟩

theorem witness_LaterOperationsDoNotMoveTheEnd : endOfRun 0x200 [] State.reset = some (0, State.reset) := rfl

theorem witness_AtASelfJumpOnlyTheHostChangesState :
    (withOpcode 0x1200 State.reset).atSelfJump 0x200 = true ∧ HostOp.tick ≠ .reset ∧ (∀ image, HostOp.tick ≠ .load image) ∧
    perform .tick (withOpcode 0x1200 State.reset) = .next (tickOp (withOpcode 0x1200 State.reset), .nothing) :=
  ⟨by decide, by decide, fun _ => HostOp.noConfusion, rfl⟩

end Sys2Proof.Tests
end

section
/-!
The two bytes of an opcode by shift and OR, as spec/20_memory.md R67 writes them, and the obligation on fetch and
storage (family `20_memory.md`).
-/

namespace Sys2Proof.Machine

/-! ### Words and bytes -/

theorem opcodeOfBytes_eq_shift_or (hi lo : Byte) :
    opcodeOfBytes hi lo = hi.setWidth 16 <<< 8 ||| lo.setWidth 16 := by
  rw [opcodeOfBytes, BitVec.append_def, BitVec.shiftLeftZeroExtend_eq, BitVec.setWidth'_eq]

theorem bytesOfOpcode_eq_shift (op : Word) : bytesOfOpcode op = [(op >>> 8).setWidth 8, op.setWidth 8] := by
  rw [bytesOfOpcode, BitVec.setWidth_ushiftRight_eq_extractLsb, BitVec.setWidth_eq_extractLsb' (by decide)]

/-! ### Fetch and storage -/

/-- Settles O6: a fetch in range joins the bytes at `PC` and `PC + 1`, and the encoder splits its word, in the order
of R67. -/
theorem fetchIsBigEndian : Obligations.FetchIsBigEndian := by
  refine ⟨fun s hPC => ?_, fun i => ?_⟩
  · rw [fetchWord_of_lt hPC, opcodeOfBytes_eq_shift_or]
  · exact bytesOfOpcode_eq_shift (encode i)

end Sys2Proof.Machine
end

section
/-!
Unknown words and the timers in a cycle (family `40_engine_and_dispatch.md`): every word of the list of R99 decodes to
UNKNOWN, whose cycle is the engine's advance alone (R124); and what a handler can make of `DT` and `ST` (R126).
-/

namespace Sys2Proof

/-! ### Unknown words -/

/-- Stage 2 of family 0 leaves every trailing nibble but 0 and E to UNKNOWN (R94). -/
theorem decodeFamily0_eq_unknown {w : Word} (h : ¬[0x0#4, 0xE#4].contains (nOf w)) :
    decodeFamily0 w = .unknown w := by
  unfold decodeFamily0
  split
  case h_3 => rfl
  all_goals next hmatch => simp [hmatch] at h

/-- Stage 2 of family 8 leaves the trailing nibbles 8 to D and F to UNKNOWN (R95). -/
theorem decodeFamily8_eq_unknown {w : Word}
    (h : [0x8#4, 0x9#4, 0xA#4, 0xB#4, 0xC#4, 0xD#4, 0xF#4].contains (nOf w)) :
    decodeFamily8 w = .unknown w := by
  unfold decodeFamily8
  split
  case h_10 => rfl
  all_goals next hmatch => simp [hmatch] at h

/-- Stage 2 of family E leaves every trailing nibble but 1 and E to UNKNOWN (R96). -/
theorem decodeFamilyE_eq_unknown {w : Word} (h : ¬[0x1#4, 0xE#4].contains (nOf w)) :
    decodeFamilyE w = .unknown w := by
  unfold decodeFamilyE
  split
  case h_3 => rfl
  all_goals next hmatch => simp [hmatch] at h

/-- Stage 2 of family F leaves every trailing byte but its nine to UNKNOWN (R97). -/
theorem decodeFamilyF_eq_unknown {w : Word}
    (h : ¬[0x07#8, 0x0A#8, 0x15#8, 0x18#8, 0x1E#8, 0x29#8, 0x33#8, 0x55#8, 0x65#8].contains (kkOf w)) :
    decodeFamilyF w = .unknown w := by
  unfold decodeFamilyF
  split
  case h_10 => rfl
  all_goals next hmatch => simp [hmatch] at h

/-- The list of R99 in the decoder's own fields. -/
theorem isUnknownWord_iff (w : Word) : isUnknownWord w = true ↔
    op1Of w = 0x0#4 ∧ ¬[0x0#4, 0xE#4].contains (nOf w) ∨
    op1Of w = 0x8#4 ∧ [0x8#4, 0x9#4, 0xA#4, 0xB#4, 0xC#4, 0xD#4, 0xF#4].contains (nOf w) ∨
    op1Of w = 0xE#4 ∧ ¬[0x1#4, 0xE#4].contains (nOf w) ∨
    op1Of w = 0xF#4 ∧
      ¬[0x07#8, 0x0A#8, 0x15#8, 0x18#8, 0x1E#8, 0x29#8, 0x33#8, 0x55#8, 0x65#8].contains (kkOf w) := by
  simp only [isUnknownWord, op1Of, nOf, kkOf, Bool.or_eq_true, Bool.and_eq_true, beq_iff_eq, Bool.not_eq_true',
    Bool.not_eq_true, or_assoc]

/-- A word of the list of R99 decodes to UNKNOWN with that word. -/
theorem decode_of_isUnknownWord {w : Word} (h : isUnknownWord w = true) : decode w = .unknown w := by
  obtain ⟨h1, hn⟩ | ⟨h1, hn⟩ | ⟨h1, hn⟩ | ⟨h1, hkk⟩ := (isUnknownWord_iff w).1 h <;> simp only [decode, h1]
  · exact decodeFamily0_eq_unknown hn
  · exact decodeFamily8_eq_unknown hn
  · exact decodeFamilyE_eq_unknown hn
  · exact decodeFamilyF_eq_unknown hkk

namespace Machine

/-! ### The cycle of an unknown word -/

theorem exec_unknown (w : Word) (s : State) : exec (.unknown w) s = .next s := rfl

theorem cycleReply_of_running {s : State} (h : s.halt = none) : cycleReply s = .ok := by
  simp only [cycleReply, h]

/-- Settles O15: an unknown word decodes to UNKNOWN, whose handler leaves the advanced state as it is. -/
theorem unknownOpcodeIsANoOp : Obligations.UnknownOpcodeIsANoOp := by
  refine ⟨exec_unknown, fun s w hh hf hw => ?_⟩
  have hstep : step s = .next s.advance := by
    rw [step_of_fetch hh hf, decode_of_isUnknownWord hw, exec_unknown]
  have hreply : cycleReply s.advance = .ok := cycleReply_of_running hh
  rw [perform_cycle_of_step hstep, hreply]
  rfl

/-! ### The timers in a cycle -/

/-- Whatever next state the outcome `o` gives has the timers of `s`. -/
def KeepsTimers (s : State) (o : StepOutcome) : Prop := ∀ t, o = .next t → t.DT = s.DT ∧ t.ST = s.ST

theorem keepsTimers_next {s t : State} (hDT : t.DT = s.DT) (hST : t.ST = s.ST) : KeepsTimers s (.next t) := by
  rintro _ ⟨⟩
  exact ⟨hDT, hST⟩

theorem keepsTimers_raise (c : Fault) (s : State) : KeepsTimers s (raise c s) := keepsTimers_next rfl rfl

theorem keepsTimers_skipIf (c : Bool) (s : State) : KeepsTimers s (skipIf c s) :=
  keepsTimers_next (s.setPC_DT _) (s.setPC_ST _)

/-- A handler that checks first and raises otherwise keeps the timers when its completing branch does. -/
theorem keepsTimers_dite_raise {s : State} {p : Prop} [Decidable p] {f : p → StepOutcome} (c : Fault)
    (h : ∀ hp, KeepsTimers s (f hp)) : KeepsTimers s (if hp : p then f hp else raise c s) := by
  split
  · exact h _
  · exact keepsTimers_raise c s

/-- The key-wait writes a register or rewinds `PC`. -/
theorem keepsTimers_execLdVxK (x : Nibble) (s : State) : KeepsTimers s (execLdVxK x s) := by
  unfold execLdVxK
  split
  · exact keepsTimers_next (s.setV_DT x _) (s.setV_ST x _)
  · exact keepsTimers_next s.rewind_DT s.rewind_ST

/-- Every handler but those of LD DT,Vx and LD ST,Vx keeps both timers, and these two write their own one only
(45_timers.md R211, R212). -/
theorem exec_timers (i : Instr) (s : State) :
    KeepsTimers s (exec i s) ∨
    (∃ x, i = .ldDtVx x ∧ exec i s = .next { s with DT := s.getV x }) ∨
    ∃ x, i = .ldStVx x ∧ exec i s = .next { s with ST := s.getV x } := by
  cases i with
  | ldDtVx x => exact .inr (.inl ⟨x, rfl, rfl⟩)
  | ldStVx x => exact .inr (.inr ⟨x, rfl, rfl⟩)
  | seImm | sneImm | seReg | sneReg | skp | sknp => exact .inl (keepsTimers_skipIf _ s)
  | ret | call | drw | ldB | ldMemVx | ldVxMem =>
    exact .inl (keepsTimers_dite_raise _ fun _ => keepsTimers_next rfl rfl)
  | ldVxK x => exact .inl (keepsTimers_execLdVxK x s)
  | cls | jp | jpV0 | ldImm | addImm | ldReg | orReg | andReg | xorReg | addReg | sub | subn | shr | shl
  | ldI | rnd | ldVxDt | addI | ldF | unknown => exact .inl (keepsTimers_next rfl rfl)

/-- Settles O39: a halted cycle and a fetch fault keep both timers; a handler that does not is that of LD DT,Vx or
LD ST,Vx. -/
theorem cyclesMoveTimersOnlyByTheirInstructions : Obligations.CyclesMoveTimersOnlyByTheirInstructions := by
  intro s t h
  obtain ⟨_, -, hs⟩ | ⟨-, -, hs⟩ | ⟨w, -, hf, hs⟩ := step_cases s <;> rw [hs] at h
  · cases h
    exact ⟨absurd rfl, absurd rfl⟩
  · cases h
    exact ⟨absurd rfl, absurd rfl⟩
  · obtain hk | ⟨x, hi, he⟩ | ⟨x, hi, he⟩ := exec_timers (decode w) s.advance
    · obtain ⟨hDT, hST⟩ := hk t h
      exact ⟨absurd hDT, absurd hST⟩
    · cases he.symm.trans h
      exact ⟨fun _ => ⟨w, x, hf, hi⟩, absurd rfl⟩
    · cases he.symm.trans h
      exact ⟨absurd rfl, fun _ => ⟨w, x, hf, hi⟩⟩

end Machine

end Sys2Proof
end

section
/-!
Control flow (family `41_control_flow.md`): the instructions the mask of an opcode row selects, and the statements on
CLS, the two jumps and the register skips.
-/

namespace Sys2Proof

namespace Claims

/-! ### Instructions by the fields a mask examines -/

/-- An instruction that the leading nibble alone selects (R93). -/
theorem encoded_of_op1 {i : Word → Instr} (p : Nibble) (h : ∀ w, op1Of w = p → decode w = i w) :
    Encoded 0xF000 (p ++ 0#12) i :=
  fun w hw => h w (op1Of_of_mask hw)

/-- An instruction that the leading and the trailing nibble select (R94 to R96). -/
theorem encoded_of_op1_n {i : Word → Instr} (p n : Nibble) (h : ∀ w, op1Of w = p → nOf w = n → decode w = i w) :
    Encoded 0xF00F (p ++ 0#4 ++ 0#4 ++ n) i := fun w hw =>
  have ⟨hp, hn⟩ := op1Of_nOf_of_mask hw
  h w hp hn

/-! ### The framebuffer of one value -/

theorem pixel_replicate (b : Bool) (px : Fin 64) (py : Fin 32) : pixel (Vector.replicate 2048 b) px py = b :=
  Vector.getElem_replicate _

end Claims

namespace Machine

open Claims

/-! ### CLS -/

theorem exec_cls (s : State) : exec .cls s = .next { s with fb := Vector.replicate 2048 false } := rfl

/-- Settles O16: the row `0__0` decodes to CLS, and every cell of the framebuffer it leaves is off. -/
theorem clsClearsEveryPixel : Obligations.ClsClearsEveryPixel := by
  refine ⟨encoded_of_op1_n 0x0#4 0x0#4 fun w hp hn => ?_, rfl, fun s => ⟨_, exec_cls s, rfl, pixel_replicate false⟩⟩
  simp only [decode, hp, decodeFamily0, hn]

/-! ### Jumps -/

theorem exec_jp (nnn : Imm12) (s : State) : exec (.jp nnn) s = .next { s with PC := addrOf nnn } := rfl

theorem exec_jpV0 (nnn : Imm12) (s : State) :
    exec (.jpV0 nnn) s = .next { s with PC := addrOf nnn + wideOf (s.getV 0) } := rfl

/-- The sum of a 12-bit address and a register stays below 65536, so the addition at 16 bits is exact (R144). -/
theorem addrOf_add_wideOf_toNat (nnn : Imm12) (v : Byte) :
    (addrOf nnn + wideOf v).toNat = nnn.toNat + v.toNat := by
  have hsum : nnn.toNat + v.toNat < 2 ^ 16 := by omega
  rw [BitVec.toNat_add, addrOf_toNat, wideOf_toNat, Nat.mod_eq_of_lt hsum]

/-- Settles O20: the target is the zero-extended immediate. -/
theorem jumpSetsThePc : Obligations.JumpSetsThePc := by
  refine ⟨encoded_of_op1 0x1#4 fun w hp => ?_, fun nnn s => ⟨_, exec_jp nnn s, rfl, addrOf_toNat nnn⟩⟩
  simp only [decode, hp]

/-- Settles O21: the target is the exact sum, which 16 bits hold. -/
theorem jumpWithOffsetAddsV0 : Obligations.JumpWithOffsetAddsV0 := by
  refine ⟨encoded_of_op1 0xB#4 fun w hp => ?_,
    fun nnn s => ⟨_, exec_jpV0 nnn s, rfl, addrOf_add_wideOf_toNat nnn (s.getV 0)⟩⟩
  simp only [decode, hp]

/-! ### Skips -/

/-- The skip of SE: on equal bytes `PC` advances by a further 2 (R145, R146, R148). -/
theorem skipIf_beq (a b : Byte) (s : State) :
    skipIf (a == b) s = .next { s with PC := if a = b then s.PC + 2 else s.PC } := by
  simp only [skipIf, beq_iff_eq, State.setPC]

/-- The skip of SNE: on equal bytes `PC` stays as the engine left it (R145, R147, R149). -/
theorem skipIf_bne (a b : Byte) (s : State) :
    skipIf (a != b) s = .next { s with PC := if a = b then s.PC else s.PC + 2 } := by
  simp only [skipIf, bne_iff_ne, ne_eq, ite_not, State.setPC]

theorem exec_seImm (x : Nibble) (kk : Byte) (s : State) : exec (.seImm x kk) s = skipIf (s.getV x == kk) s := rfl

theorem exec_sneImm (x : Nibble) (kk : Byte) (s : State) : exec (.sneImm x kk) s = skipIf (s.getV x != kk) s := rfl

theorem exec_seReg (x y : Nibble) (s : State) : exec (.seReg x y) s = skipIf (s.getV x == s.getV y) s := rfl

theorem exec_sneReg (x y : Nibble) (s : State) : exec (.sneReg x y) s = skipIf (s.getV x != s.getV y) s := rfl

/-- Settles O22: each of the four is a skip on one comparison of two bytes. -/
theorem skipsAdvanceThePcOnTheirCondition : Obligations.SkipsAdvanceThePcOnTheirCondition := by
  refine ⟨encoded_of_op1 0x3#4 ?_, encoded_of_op1 0x4#4 ?_, encoded_of_op1 0x5#4 ?_, encoded_of_op1 0x9#4 ?_,
    fun x y kk s => ⟨?_, ?_, ?_, ?_⟩⟩
  case refine_1 | refine_2 | refine_3 | refine_4 => intro w hp; simp only [decode, hp]
  · rw [exec_seImm, skipIf_beq]
  · rw [exec_sneImm, skipIf_bne]
  · rw [exec_seReg, skipIf_beq]
  · rw [exec_sneReg, skipIf_bne]

end Machine

end Sys2Proof
end

section
/-!
Arithmetic, logic and index loads (family `42_alu.md`): what one register write, and one after a flag write, make of
the state, and the statements on the immediate forms, the register logic, ADD and the loads of `I`.
-/

namespace Sys2Proof

namespace Machine

/-- A register reads back what was just written to it. -/
@[simp] theorem State.getV_setV_self (s : State) (x : Nibble) (v : Byte) : (s.setV x v).getV x = v := by
  rw [State.getV_setV, if_pos rfl]

theorem State.getV_setV_of_ne {r x : Nibble} (h : r ≠ x) (s : State) (v : Byte) : (s.setV x v).getV r = s.getV r := by
  rw [State.getV_setV, if_neg h]

end Machine

namespace Claims

open Machine

/-! ### Rows of two stages -/

/-- An instruction of family 8 that the trailing nibble selects (R95). -/
theorem encoded_of_family8 {i : Word → Instr} (n : Nibble) (h : ∀ w, nOf w = n → decodeFamily8 w = i w) :
    Encoded 0xF00F (0x8#4 ++ 0#4 ++ 0#4 ++ n) i :=
  encoded_of_op1_n 0x8#4 n fun w hp hn => by simp only [decode, hp, h w hn]

/-- An instruction of family F that the trailing byte selects (R97). -/
theorem encoded_of_familyF {i : Word → Instr} (kk : Byte) (h : ∀ w, kkOf w = kk → decodeFamilyF w = i w) :
    Encoded 0xF0FF (0xF#4 ++ 0#4 ++ kk) i := fun w hw => by
  obtain ⟨hp, hkk⟩ := op1Of_kkOf_of_mask hw
  rw [decode, hp]
  exact h w hkk

/-! ### Register writes as the statements describe them -/

theorem setsOnlyVx_setV (s : State) (x : Nibble) (v : Byte) : SetsOnlyVx s (s.setV x v) x v :=
  ⟨rfl, s.getV_setV_self x v, fun _ hr => State.getV_setV_of_ne hr s v⟩

/-- The flag write first, the result write after it (R174): `VF` keeps the flag only where `x` is another register. -/
theorem setsFlagThenVx_setV_setFlag (s : State) (x : Nibble) (b : Bool) (v : Byte) :
    SetsFlagThenVx s ((s.setFlag b).setV x v) x b v := by
  refine ⟨rfl, State.getV_setV_self _ x v, fun hx => ?_, fun r hr hF => ?_⟩
  · rw [State.getV_setV_of_ne hx.symm, State.getV_setFlag, if_pos rfl, flagByte]
  · rw [State.getV_setV_of_ne hr, State.getV_setFlag, if_neg hF]

end Claims

namespace Machine

open Claims

/-! ### Immediate forms -/

theorem exec_ldImm (x : Nibble) (kk : Byte) (s : State) : exec (.ldImm x kk) s = .next (s.setV x kk) := rfl

theorem exec_addImm (x : Nibble) (kk : Byte) (s : State) :
    exec (.addImm x kk) s = .next (s.setV x (s.getV x + kk)) := rfl

/-- Settles O23: each form is one write of `Vx`, and a sum of bytes is the sum modulo 256. -/
theorem immediateFormsWriteOnlyVx : Obligations.ImmediateFormsWriteOnlyVx := by
  refine ⟨encoded_of_op1 0x6#4 ?_, encoded_of_op1 0x7#4 ?_,
    fun x kk s => ⟨⟨_, exec_ldImm x kk s, setsOnlyVx_setV s x kk⟩, _, exec_addImm x kk s, ?_⟩⟩
  case refine_1 | refine_2 => intro w hp; simp only [decode, hp]
  rw [State.getV_setV_self]
  exact ⟨setsOnlyVx_setV s x _, BitVec.toNat_add _ _⟩

/-! ### Register logic -/

theorem exec_ldReg (x y : Nibble) (s : State) : exec (.ldReg x y) s = .next (s.setV x (s.getV y)) := rfl

theorem exec_orReg (x y : Nibble) (s : State) : exec (.orReg x y) s = .next (s.setV x (s.getV x ||| s.getV y)) := rfl

theorem exec_andReg (x y : Nibble) (s : State) : exec (.andReg x y) s = .next (s.setV x (s.getV x &&& s.getV y)) := rfl

theorem exec_xorReg (x y : Nibble) (s : State) : exec (.xorReg x y) s = .next (s.setV x (s.getV x ^^^ s.getV y)) := rfl

/-- Settles O24: each of the four is one write of `Vx`. -/
theorem registerLogicWritesOnlyVx : Obligations.RegisterLogicWritesOnlyVx := by
  refine ⟨encoded_of_family8 0x0#4 ?_, encoded_of_family8 0x1#4 ?_, encoded_of_family8 0x2#4 ?_,
    encoded_of_family8 0x3#4 ?_, fun x y s =>
      ⟨⟨_, exec_ldReg x y s, setsOnlyVx_setV s x _⟩, ⟨_, exec_orReg x y s, setsOnlyVx_setV s x _⟩,
        ⟨_, exec_andReg x y s, setsOnlyVx_setV s x _⟩, _, exec_xorReg x y s, setsOnlyVx_setV s x _⟩⟩
  case refine_1 | refine_2 | refine_3 | refine_4 => intro w hn; simp only [decodeFamily8, hn]

/-! ### ADD -/

theorem exec_addReg (x y : Nibble) (s : State) : exec (.addReg x y) s =
    .next ((s.setFlag (carryOf (s.getV x) (s.getV y))).setV x (s.getV x + s.getV y)) := rfl

/-- Settles O25: both operands are read before the flag is written, so the carry and the result are those of the old
registers, `x = 0xF` included. -/
theorem addReportsTheCarry : Obligations.AddReportsTheCarry := by
  refine ⟨encoded_of_family8 0x4#4 fun w hn => ?_, fun x y s => ⟨_, exec_addReg x y s, ?_⟩⟩
  · simp only [decodeFamily8, hn]
  · rw [State.getV_setV_self]
    exact ⟨setsFlagThenVx_setV_setFlag s x _ _, BitVec.toNat_add _ _⟩

/-! ### Loads of the index register -/

theorem exec_ldI (nnn : Imm12) (s : State) : exec (.ldI nnn) s = .next (s.setI (addrOf nnn)) := rfl

theorem exec_ldF (x : Nibble) (s : State) : exec (.ldF x) s = .next (s.setI (glyphAddr (s.getV x))) := rfl

/-- Settles O30: each load is one write of `I`, and 16 bits hold either address. -/
theorem indexLoadsWriteOnlyI : Obligations.IndexLoadsWriteOnlyI := by
  refine ⟨encoded_of_op1 0xA#4 fun w hp => ?_, encoded_of_familyF 0x29#8 fun w hkk => ?_, fun nnn x s =>
    ⟨⟨_, exec_ldI nnn s, rfl, addrOf_toNat nnn⟩, _, exec_ldF x s, rfl, glyphAddr_toNat (s.getV x)⟩⟩
  · simp only [decode, hp]
  · simp only [decodeFamilyF, hkk]

end Machine

end Sys2Proof
end

section
/-!
Timer instructions (family `45_timers.md`): what the three moves between a register and a timer make of the state.
-/

namespace Sys2Proof.Machine

open Claims

theorem exec_ldVxDt (x : Nibble) (s : State) : exec (.ldVxDt x) s = .next (s.setV x s.DT) := rfl

theorem exec_ldDtVx (x : Nibble) (s : State) : exec (.ldDtVx x) s = .next { s with DT := s.getV x } := rfl

theorem exec_ldStVx (x : Nibble) (s : State) : exec (.ldStVx x) s = .next { s with ST := s.getV x } := rfl

/-- Settles O37: the trailing byte selects each of the three in family F; the read of `DT` is one write of `Vx`, and
the other two are one write of a timer. -/
theorem timerInstructionsMoveOneValue : Obligations.TimerInstructionsMoveOneValue := by
  refine ⟨encoded_of_familyF 0x07#8 ?_, encoded_of_familyF 0x15#8 ?_, encoded_of_familyF 0x18#8 ?_, fun x s =>
    ⟨⟨_, exec_ldVxDt x s, setsOnlyVx_setV s x s.DT⟩, exec_ldDtVx x s, exec_ldStVx x s⟩⟩
  case refine_1 | refine_2 | refine_3 => intro w hkk; simp only [decodeFamilyF, hkk]

end Sys2Proof.Machine
end

section
/-!
Host operations (family `47_host_operations.md`): what TICK makes of the state.
-/

namespace Sys2Proof.Machine

theorem perform_tick (s : State) : perform .tick s = .next (tickOp s, .nothing) := rfl

/-- TICK writes the two timers and no other component, the latch included. -/
theorem tickOp_frame (s : State) : tickOp s = { s with DT := (tickOp s).DT, ST := (tickOp s).ST } := rfl

/-- Settles O38: TICK takes each timer down by `tickTimer`, whose value is the truncated difference `t - 1`. -/
theorem tickDecrementsEachNonzeroTimer : Obligations.TickDecrementsEachNonzeroTimer := fun s =>
  ⟨tickOp s, perform_tick s, tickOp_frame s, tickTimer_toNat s.DT, tickTimer_toNat s.ST⟩

end Sys2Proof.Machine
end

section
/-!
The decoder and the encoder (spec/30_encoding.md): the round trip (R105, R106) and the words of UNKNOWN (R99).
-/

namespace Sys2Proof

/-! ### The round trip (R105, R106) -/

theorem decode_of_op1_F {w : Word} (h : op1Of w = 0xF#4) : decode w = decodeFamilyF w := by
  rw [decode, h]
  rfl

/-- Decoding undoes encoding: the leading nibble of the canonical word selects the family, the trailing one or the
trailing byte the instruction in it, and each operand is read from the field it was written to. -/
theorem decode_encode {i : Instr} (h : i.wellFormed = true) : decode (encode i) = i := by
  cases i with
  | cls | ret => rfl
  | jp | call | ldI | jpV0 => simp only [encode, decode, op1Of_imm12, nnnOf_imm12]
  | seImm | sneImm | ldImm | addImm | rnd => simp only [encode, decode, op1Of_xkk, xOf_xkk, kkOf_xkk]
  | seReg | sneReg | drw => simp only [encode, decode, op1Of_xyn, xOf_xyn, yOf_xyn, nOf_xyn]
  | ldReg | orReg | andReg | xorReg | addReg | sub | shr | subn | shl =>
    simp only [encode, decode, decodeFamily8, op1Of_xyn, xOf_xyn, yOf_xyn, nOf_xyn]
  | skp | sknp =>
    simp only [encode, decode, decodeFamilyE, op1Of_xkk, xOf_xkk, nOf_xkk]
    rfl
  | ldVxDt | ldVxK | ldDtVx | ldStVx | addI | ldF | ldB | ldMemVx | ldVxMem =>
    simp only [encode, decode_of_op1_F (op1Of_xkk 0xF#4 _ _), decodeFamilyF, xOf_xkk, kkOf_xkk]
  | unknown w => exact decode_of_isUnknownWord h

/-- Settles O2: the word by `decode_encode`, and the stored bytes decode as their word does. -/
theorem decodeInvertsEncode : Obligations.DecodeInvertsEncode := by
  refine fun i h => ⟨decode_encode h, fun rest => ?_⟩
  rw [encodeBytes, decodeBytes_bytesOfOpcode, decode_encode h]

/-- Settles O1: a known word is the decoding of a fixed numeral. -/
theorem specWordsDecode : Obligations.SpecWordsDecode := by
  unfold Obligations.SpecWordsDecode
  decide

/-! ### The words of UNKNOWN (R99) -/

theorem decodeFamily0_unknown {w w' : Word} (h : decodeFamily0 w = .unknown w') :
    w' = w ∧ ¬[0x0#4, 0xE#4].contains (nOf w) := by
  unfold decodeFamily0 at h
  split at h
  case h_3 h0 hE =>
    cases h
    refine ⟨rfl, ?_⟩
    simp only [List.contains_iff_mem, List.mem_cons, List.not_mem_nil, or_false, not_or]
    exact ⟨h0, hE⟩
  all_goals cases h

theorem decodeFamily8_unknown {w w' : Word} (h : decodeFamily8 w = .unknown w') :
    w' = w ∧ [0x8#4, 0x9#4, 0xA#4, 0xB#4, 0xC#4, 0xD#4, 0xF#4].contains (nOf w) := by
  unfold decodeFamily8 at h
  split at h
  case h_10 =>
    cases h
    generalize nOf w = n at *
    exact ⟨rfl, by revert n; decide⟩
  all_goals cases h

theorem decodeFamilyE_unknown {w w' : Word} (h : decodeFamilyE w = .unknown w') :
    w' = w ∧ ¬[0x1#4, 0xE#4].contains (nOf w) := by
  unfold decodeFamilyE at h
  split at h
  case h_3 hE h1 =>
    cases h
    refine ⟨rfl, ?_⟩
    simp only [List.contains_iff_mem, List.mem_cons, List.not_mem_nil, or_false, not_or]
    exact ⟨h1, hE⟩
  all_goals cases h

theorem decodeFamilyF_unknown {w w' : Word} (h : decodeFamilyF w = .unknown w') :
    w' = w ∧ ¬[0x07#8, 0x0A#8, 0x15#8, 0x18#8, 0x1E#8, 0x29#8, 0x33#8, 0x55#8, 0x65#8].contains (kkOf w) := by
  unfold decodeFamilyF at h
  split at h
  case h_10 h1 h2 h3 h4 h5 h6 h7 h8 h9 =>
    cases h
    refine ⟨rfl, ?_⟩
    simp only [List.contains_iff_mem, List.mem_cons, List.not_mem_nil, or_false, not_or]
    exact ⟨h1, h2, h3, h4, h5, h6, h7, h8, h9⟩
  all_goals cases h

/-- Only a word of the list of R99 decodes to UNKNOWN, and to UNKNOWN with that word. -/
theorem isUnknownWord_of_decode {w w' : Word} (h : decode w = .unknown w') : w' = w ∧ isUnknownWord w = true := by
  rw [isUnknownWord_iff]
  unfold decode at h
  split at h
  case h_1 hp => exact (decodeFamily0_unknown h).imp_right fun hn => .inl ⟨hp, hn⟩
  case h_9 hp => exact (decodeFamily8_unknown h).imp_right fun hn => .inr (.inl ⟨hp, hn⟩)
  case h_15 hp => exact (decodeFamilyE_unknown h).imp_right fun hn => .inr (.inr (.inl ⟨hp, hn⟩))
  case h_16 =>
    have hp : op1Of w = 0xF#4 := by
      generalize op1Of w = p at *
      revert p
      decide
    exact (decodeFamilyF_unknown h).imp_right fun hkk => .inr (.inr (.inr ⟨hp, hkk⟩))
  all_goals cases h

/-- What the decoder answers is an instruction that some opcode encodes. -/
theorem wellFormed_decode (w : Word) : (decode w).wellFormed = true := by
  cases h : decode w with
  | unknown w' =>
    obtain ⟨rfl, hw⟩ := isUnknownWord_of_decode h
    exact hw
  | _ => rfl

/-- Settles O3: both directions of R99, and the word that UNKNOWN keeps. -/
theorem unknownWordsAreExactlyTheListed : Obligations.UnknownWordsAreExactlyTheListed := fun w =>
  ⟨wellFormed_decode w, ⟨fun h => (isUnknownWord_of_decode h).2, decode_of_isUnknownWord⟩,
    fun _ h => (isUnknownWord_of_decode h).1⟩

end Sys2Proof
end

section
/-!
The bits of a word that matter (spec/30_encoding.md R98) and the opcode table (R104), both read through the fields of
a word.
-/

namespace Sys2Proof

open Claims

/-! ### Ignored bits (R98) -/

/-- Words that agree under a mask agree in every field that the mask covers. -/
theorem extractLsb'_congr {w w' : Word} (m : Word) {a n : Nat} (h : w &&& m = w' &&& m)
    (hm : m.extractLsb' a n = BitVec.allOnes n) : w'.extractLsb' a n = w.extractLsb' a n := by
  have hfield := congrArg (fun v : Word => v.extractLsb' a n) h
  simpa only [BitVec.extractLsb'_and, hm, BitVec.and_allOnes, eq_comm] using hfield

theorem eq_of_and_allOnes {w w' : Word} (h : w &&& 0xFFFF = w' &&& 0xFFFF) : w' = w := by
  rwa [show (0xFFFF : Word) = BitVec.allOnes 16 from rfl, BitVec.and_allOnes, BitVec.and_allOnes, eq_comm] at h

/-- The leading nibble of every instruction is examined. -/
theorem significantBits_op1 (i : Instr) : (significantBits i).extractLsb' 12 4 = BitVec.allOnes 4 := by
  cases i <;> simp only [significantBits] <;> rfl

/-- The leading and the trailing nibble decide where family 0 is not UNKNOWN. -/
theorem decodeFamily0_congr {w w' : Word}
    (h : w &&& significantBits (decodeFamily0 w) = w' &&& significantBits (decodeFamily0 w)) :
    decodeFamily0 w' = decodeFamily0 w := by
  unfold decodeFamily0 at h
  split at h
  case h_1 | h_2 =>
    have hn : nOf w' = nOf w := extractLsb'_congr 0xF00F h (by decide)
    simp only [decodeFamily0, *]
  case h_3 => rw [eq_of_and_allOnes h]

/-- The two shifts ignore `y`; every other bit of family 8 counts. -/
theorem decodeFamily8_congr {w w' : Word}
    (h : w &&& significantBits (decodeFamily8 w) = w' &&& significantBits (decodeFamily8 w)) :
    decodeFamily8 w' = decodeFamily8 w := by
  unfold decodeFamily8 at h
  split at h
  case h_7 | h_9 =>
    have hn : nOf w' = nOf w := extractLsb'_congr 0xFF0F h (by decide)
    have hx : xOf w' = xOf w := extractLsb'_congr 0xFF0F h (by decide)
    simp only [decodeFamily8, *]
  all_goals rw [eq_of_and_allOnes h]

/-- The key skips ignore `y`. -/
theorem decodeFamilyE_congr {w w' : Word}
    (h : w &&& significantBits (decodeFamilyE w) = w' &&& significantBits (decodeFamilyE w)) :
    decodeFamilyE w' = decodeFamilyE w := by
  unfold decodeFamilyE at h
  split at h
  case h_1 | h_2 =>
    have hn : nOf w' = nOf w := extractLsb'_congr 0xFF0F h (by decide)
    have hx : xOf w' = xOf w := extractLsb'_congr 0xFF0F h (by decide)
    simp only [decodeFamilyE, *]
  case h_3 => rw [eq_of_and_allOnes h]

theorem significantBits_decodeFamilyF (w : Word) : significantBits (decodeFamilyF w) = 0xFFFF := by
  unfold decodeFamilyF
  split <;> rfl

/-- Settles O5: the leading nibble is the same, so both words are of one family; outside families 0, 8, E and F only the
register skips ignore bits, and they read `x` and `y`. -/
theorem ignoredBitsDoNotMatter : Obligations.IgnoredBitsDoNotMatter := by
  intro w w' h
  have hp : op1Of w' = op1Of w := extractLsb'_congr _ h (significantBits_op1 _)
  unfold decode at h
  split at h
  case h_6 | h_10 =>
    have hx : xOf w' = xOf w := extractLsb'_congr 0xFFF0 h (by decide)
    have hy : yOf w' = yOf w := extractLsb'_congr 0xFFF0 h (by decide)
    simp only [decode, *]
  case h_1 => simpa only [decode, *] using decodeFamily0_congr h
  case h_9 => simpa only [decode, *] using decodeFamily8_congr h
  case h_15 => simpa only [decode, *] using decodeFamilyE_congr h
  case h_16 => rw [significantBits_decodeFamilyF] at h; rw [eq_of_and_allOnes h]
  all_goals rw [eq_of_and_allOnes h]

/-! ### The opcode table (R104) -/

/-- A word that a row covers has the row's own fields, wherever the row's mask covers the field. -/
theorem OpcodeRow.extractLsb'_of_covers {r : OpcodeRow} {w : Word} {a n : Nat} (h : r.covers w = true)
    (hr : r.covers r.pattern = true) (hm : r.mask.extractLsb' a n = BitVec.allOnes n) :
    w.extractLsb' a n = r.pattern.extractLsb' a n := by
  rw [OpcodeRow.covers, beq_iff_eq] at h hr
  exact extractLsb'_congr r.mask (hr.trans h.symm) hm

/-- A covered word decodes to the instruction of the covering row: the row's fields select its arm. -/
theorem mnemonic_of_covers_stage1 {w : Word} : ∀ r ∈ stage1Rows, r.covers w = true →
    (decode w).mnemonic = r.mnemonic := by
  have hmask : ∀ r ∈ stage1Rows, r.covers r.pattern = true ∧ r.mask.extractLsb' 12 4 = BitVec.allOnes 4 := by decide
  have harm : ∀ r ∈ stage1Rows, op1Of w = op1Of r.pattern → (decode w).mnemonic = r.mnemonic := by
    simp only [stage1Rows, List.forall_mem_cons]
    refine ⟨?_, ?_, ?_, ?_, ?_, ?_, ?_, ?_, ?_, ?_, ?_, ?_, fun _ => nofun⟩
    all_goals
      intro hp
      rw [decode, hp]
      rfl
  intro r hr h
  obtain ⟨hself, hop1⟩ := hmask r hr
  exact harm r hr (OpcodeRow.extractLsb'_of_covers h hself hop1)

theorem mnemonic_of_covers_trailing_nibble {w : Word} : ∀ r ∈ family0ERows ++ family8Rows, r.covers w = true →
    (decode w).mnemonic = r.mnemonic := by
  have hmask : ∀ r ∈ family0ERows ++ family8Rows, r.covers r.pattern = true ∧
      r.mask.extractLsb' 12 4 = BitVec.allOnes 4 ∧ r.mask.extractLsb' 0 4 = BitVec.allOnes 4 := by decide
  have harm : ∀ r ∈ family0ERows ++ family8Rows, op1Of w = op1Of r.pattern → nOf w = nOf r.pattern →
      (decode w).mnemonic = r.mnemonic := by
    simp only [family0ERows, family8Rows, List.cons_append, List.nil_append, List.forall_mem_cons]
    refine ⟨?_, ?_, ?_, ?_, ?_, ?_, ?_, ?_, ?_, ?_, ?_, ?_, ?_, fun _ => nofun⟩
    all_goals
      intro hp hn
      rw [decode, hp]
      simp only [decodeFamily0, decodeFamily8, decodeFamilyE, hn]
      rfl
  intro r hr h
  obtain ⟨hself, hop1, hn⟩ := hmask r hr
  exact harm r hr (OpcodeRow.extractLsb'_of_covers h hself hop1) (OpcodeRow.extractLsb'_of_covers h hself hn)

theorem mnemonic_of_covers_trailing_byte {w : Word} : ∀ r ∈ familyFRows, r.covers w = true →
    (decode w).mnemonic = r.mnemonic := by
  have hmask : ∀ r ∈ familyFRows, r.covers r.pattern = true ∧ op1Of r.pattern = 0xF#4 ∧
      r.mask.extractLsb' 12 4 = BitVec.allOnes 4 ∧ r.mask.extractLsb' 0 8 = BitVec.allOnes 8 := by decide
  have harm : ∀ r ∈ familyFRows, kkOf w = kkOf r.pattern → (decodeFamilyF w).mnemonic = r.mnemonic := by
    simp only [familyFRows, List.forall_mem_cons]
    refine ⟨?_, ?_, ?_, ?_, ?_, ?_, ?_, ?_, ?_, fun _ => nofun⟩
    all_goals
      intro hkk
      rw [decodeFamilyF, hkk]
      rfl
  intro r hr h
  obtain ⟨hself, hF, hop1, hkk⟩ := hmask r hr
  rw [decode_of_op1_F ((OpcodeRow.extractLsb'_of_covers h hself hop1).trans hF)]
  exact harm r hr (OpcodeRow.extractLsb'_of_covers h hself hkk)

/-- A word that an instruction row covers decodes to the row's instruction. -/
theorem mnemonic_of_covers {r : OpcodeRow} {w : Word} (hr : r ∈ instructionRows) (h : r.covers w = true) :
    (decode w).mnemonic = r.mnemonic := by
  rw [instructionRows, List.append_assoc stage1Rows, List.mem_append, List.mem_append] at hr
  obtain (hr | hr) | hr := hr
  · exact mnemonic_of_covers_stage1 r hr h
  · exact mnemonic_of_covers_trailing_nibble r hr h
  · exact mnemonic_of_covers_trailing_byte r hr h

theorem eq_fields (w : Word) : w = op1Of w ++ xOf w ++ yOf w ++ nOf w :=
  BitVec.eq_of_toNat_eq (by rw [toNat_xyn, op1Of_toNat, xOf_toNat, yOf_toNat, nOf_toNat]; omega)

theorem eq_fields_kk (w : Word) : w = op1Of w ++ xOf w ++ kkOf w :=
  BitVec.eq_of_toNat_eq (by rw [toNat_xkk, op1Of_toNat, xOf_toNat, kkOf_toNat]; omega)

/-- Some instruction row covers the word. -/
def Covered (w : Word) : Prop := ∃ r ∈ instructionRows, r.covers w = true

theorem covered_of_and {w m p : Word} (h : w &&& m = p)
    (hr : ∃ r ∈ instructionRows, r.mask = m ∧ r.pattern = p) : Covered w := by
  obtain ⟨r, hr, rfl, rfl⟩ := hr
  exact ⟨r, hr, by rw [OpcodeRow.covers, h, beq_self_eq_true]⟩

theorem covered_of_op1 {w : Word} {p : Nibble} (hp : op1Of w = p)
    (hr : ∃ r ∈ instructionRows, r.mask = 0xF000 ∧ r.pattern = p ++ 0#4 ++ 0#4 ++ 0#4) : Covered w := by
  refine covered_of_and ?_ hr
  rw [← hp, ← Laws.EncodesInItsRow.leading_xyn (op1Of w) (xOf w) (yOf w) (nOf w), ← eq_fields]
  rfl

theorem covered_of_op1_n {w : Word} {p n : Nibble} (hp : op1Of w = p) (hn : nOf w = n)
    (hr : ∃ r ∈ instructionRows, r.mask = 0xF00F ∧ r.pattern = p ++ 0#4 ++ 0#4 ++ n) : Covered w := by
  refine covered_of_and ?_ hr
  rw [← hp, ← hn, ← Laws.EncodesInItsRow.ends_xyn (op1Of w) (xOf w) (yOf w) (nOf w), ← eq_fields]
  rfl

theorem covered_of_op1_kk {w : Word} {p : Nibble} {kk : Byte} (hp : op1Of w = p) (hkk : kkOf w = kk)
    (hr : ∃ r ∈ instructionRows, r.mask = 0xF0FF ∧ r.pattern = p ++ 0#4 ++ kk) : Covered w := by
  refine covered_of_and ?_ hr
  rw [← hp, ← hkk, ← Laws.EncodesInItsRow.outer_xkk (op1Of w) (xOf w) (kkOf w), ← eq_fields_kk]
  rfl

/-- Each arm of the decoder but UNKNOWN's is the arm of a row. -/
theorem unknown_or_covered (w : Word) : decode w = .unknown w ∨ Covered w := by
  unfold decode
  split
  case h_1 hp =>
    unfold decodeFamily0
    split
    case h_3 => exact .inl rfl
    all_goals next hn => exact .inr (covered_of_op1_n hp hn (by decide))
  case h_9 hp =>
    unfold decodeFamily8
    split
    case h_10 => exact .inl rfl
    all_goals next hn => exact .inr (covered_of_op1_n hp hn (by decide))
  case h_15 hp =>
    unfold decodeFamilyE
    split
    case h_3 => exact .inl rfl
    all_goals next hn => exact .inr (covered_of_op1_n hp hn (by decide))
  case h_16 =>
    have hp : op1Of w = 0xF#4 := by
      generalize op1Of w = p at *
      revert p
      decide
    unfold decodeFamilyF
    split
    case h_10 => exact .inl rfl
    all_goals next hkk => exact .inr (covered_of_op1_kk hp hkk (by decide))
  all_goals next hp => exact .inr (covered_of_op1 hp (by decide))

/-- Settles O4: a covering instruction row carries the mnemonic of the decoded instruction, which no two rows share; and
where none covers the word, the decoder answers UNKNOWN as the catch-all row does. -/
theorem decoderAgreesWithTheOpcodeTable : Obligations.DecoderAgreesWithTheOpcodeTable := by
  refine fun w => ⟨?_, fun r hr r' hr' h h' => ?_⟩
  · rw [opcodeTable, List.find?_append]
    cases hfind : instructionRows.find? fun r => r.covers w with
    | some r =>
      have hcovers : r.covers w = true := List.find?_some (p := (OpcodeRow.covers · w)) hfind
      rw [Option.some_or, Option.map_some, mnemonic_of_covers (List.mem_of_find?_eq_some hfind) hcovers]
    | none =>
      have hnone : ¬Covered w := fun ⟨r, hr, h⟩ => List.find?_eq_none.1 hfind r hr h
      have hcatch : unknownRow.covers w = true := beq_iff_eq.2 BitVec.and_zero
      rw [Option.none_or, List.find?_cons_of_pos (p := (OpcodeRow.covers · w)) hcatch,
        (unknown_or_covered w).resolve_right hnone]
      rfl
  · have hnodup : (instructionRows.map OpcodeRow.mnemonic).Nodup := by decide
    exact List.inj_on_of_nodup_map hnodup hr hr' ((mnemonic_of_covers hr h).symm.trans (mnemonic_of_covers hr' h'))

end Sys2Proof
end

section
/-!
What each remaining handler makes of the state: RET and CALL, the subtractions, the shifts, RND, the addition to `I`,
and the keypad.
-/

namespace Sys2Proof.Machine

open Claims

/-! ### RET and CALL (41_control_flow.md R141, R143) -/

theorem exec_ret_of_pos {s : State} (h : 0 < s.SP.val) : exec .ret s = .next (s.pop h) := dif_pos h

theorem exec_ret_of_empty {s : State} (h : s.SP.val = 0) :
    exec .ret s = .next { s with halt := some .stackUnderflow } :=
  dif_neg (Nat.not_lt.2 h.le)

theorem exec_call_of_lt {s : State} (h : s.SP.val < 16) (nnn : Imm12) :
    exec (.call nnn) s = .next ((s.push h).setPC (addrOf nnn)) :=
  dif_pos h

theorem exec_call_of_full {s : State} (h : s.SP.val = 16) (nnn : Imm12) :
    exec (.call nnn) s = .next { s with halt := some .stackOverflow } :=
  dif_neg (Nat.not_lt.2 h.ge)

/-- RET pops, or raises on the empty stack. -/
theorem exec_ret_cases (s : State) :
    (∃ h : 0 < s.SP.val, exec .ret s = .next (s.pop h)) ∨
    s.SP.val = 0 ∧ exec .ret s = .next { s with halt := some .stackUnderflow } :=
  (Nat.eq_zero_or_pos s.SP.val).symm.imp (fun h => ⟨h, exec_ret_of_pos h⟩) fun h => ⟨h, exec_ret_of_empty h⟩

/-- CALL pushes and jumps, or raises on the full stack. -/
theorem exec_call_cases (nnn : Imm12) (s : State) :
    (∃ h : s.SP.val < 16, exec (.call nnn) s = .next ((s.push h).setPC (addrOf nnn))) ∨
    s.SP.val = 16 ∧ exec (.call nnn) s = .next { s with halt := some .stackOverflow } :=
  (Nat.lt_or_eq_of_le (Nat.le_of_lt_succ s.SP.isLt)).imp (fun h => ⟨h, exec_call_of_lt h nnn⟩)
    fun h => ⟨h, exec_call_of_full h nnn⟩

/-- Settles O17: a pop of a stack that is not empty, and the condition on an empty one. -/
theorem retPopsThePc : Obligations.RetPopsThePc := fun _ =>
  ⟨fun h => ⟨_, exec_ret_of_pos h, rfl, rfl, rfl⟩, exec_ret_of_empty⟩

/-- A push changes the entry at `SP` and no other. -/
theorem push_stack_getElem {s : State} (h : s.SP.val < 16) (j : Fin 16) :
    (s.push h).stack[j.val] = if j.val = s.SP.val then s.PC else s.stack[j.val] := by
  simp only [State.push_stack, Vector.getElem_set, eq_comm]

/-- Settles O18: a push on a stack that is not full, then a jump, and the condition on a full one. -/
theorem callPushesThePc : Obligations.CallPushesThePc := fun nnn _ =>
  ⟨fun h => ⟨_, exec_call_of_lt h nnn, rfl, rfl, addrOf_toNat nnn, push_stack_getElem h⟩,
    fun h => exec_call_of_full h nnn⟩

/-- Settles O19: the RET pops what the CALL pushed, from the entry the CALL wrote. -/
theorem callThenRetRestores : Obligations.CallThenRetRestores := by
  intro nnn s h
  have hpop : 0 < ((s.push h).setPC (addrOf nnn)).advance.SP.val := Nat.succ_pos _
  refine ⟨_, _, exec_call_of_lt h nnn, exec_ret_of_pos hpop, ?_, fun j hj => ?_⟩
  · simp [State.pop, State.push, State.advance, State.setPC]
  · exact (push_stack_getElem h j).trans (if_neg hj)

/-! ### SUB and SUBN (42_alu.md R168, R169) -/

theorem exec_sub (x y : Nibble) (s : State) : exec (.sub x y) s =
    let s1 := s.setFlag (notBorrowOf (s.getV x) (s.getV y))
    .next (s1.setV x (s1.getV x - s1.getV y)) := rfl

theorem exec_subn (x y : Nibble) (s : State) : exec (.subn x y) s =
    let s1 := s.setFlag (notBorrowOf (s.getV y) (s.getV x))
    .next (s1.setV x (s1.getV y - s1.getV x)) := rfl

/-- The operand a handler reads after its flag write. -/
theorem getV_setFlag_eq_afterFlag (s : State) (b : Bool) (r : Nibble) : (s.setFlag b).getV r = afterFlag s b r :=
  s.getV_setFlag b r

/-- A difference of bytes is the difference modulo 256. -/
theorem sub_toNat_emod (a b : Byte) : ((a - b).toNat : Int) = ((a.toNat : Int) - b.toNat) % 256 := by
  rw [BitVec.toNat_sub]
  omega

/-- Settles O26: the flag is written first, and both operands are read after it. -/
theorem subReportsStrictNotBorrow : Obligations.SubReportsStrictNotBorrow := by
  refine fun x y s => ⟨_, exec_sub x y s, ?_⟩
  rw [State.getV_setV_self, getV_setFlag_eq_afterFlag, getV_setFlag_eq_afterFlag]
  exact ⟨setsFlagThenVx_setV_setFlag s x _ _, sub_toNat_emod _ _⟩

/-- Settles O27: as SUB with the operands exchanged. -/
theorem subnReportsStrictNotBorrow : Obligations.SubnReportsStrictNotBorrow := by
  refine fun x y s => ⟨_, exec_subn x y s, ?_⟩
  rw [State.getV_setV_self, getV_setFlag_eq_afterFlag, getV_setFlag_eq_afterFlag]
  exact ⟨setsFlagThenVx_setV_setFlag s x _ _, sub_toNat_emod _ _⟩

/-! ### SHR and SHL (R170, R171) -/

theorem exec_shr (x : Nibble) (s : State) : exec (.shr x) s =
    let s1 := s.setFlag (shiftOutLow (s.getV x))
    .next (s1.setV x (s1.getV x >>> 1)) := rfl

theorem exec_shl (x : Nibble) (s : State) : exec (.shl x) s =
    let s1 := s.setFlag (shiftOutHigh (s.getV x))
    .next (s1.setV x (s1.getV x <<< 1)) := rfl

theorem shiftOutLow_eq (v : Byte) : shiftOutLow v = decide (v.toNat % 2 = 1) := by
  rw [shiftOutLow, BitVec.getLsbD, Nat.testBit_zero]

theorem shiftOutHigh_eq (v : Byte) : shiftOutHigh v = decide (128 ≤ v.toNat) := by
  rw [shiftOutHigh, BitVec.getLsbD, Nat.testBit_eq_decide_div_mod_eq]
  exact decide_eq_decide.2 (by omega)

/-- Settles O28: the flag is the bit shifted out of the old `Vx`, and the shifted value is read after it. -/
theorem shiftsReportTheBitShiftedOut : Obligations.ShiftsReportTheBitShiftedOut := by
  refine fun x s => ⟨⟨_, exec_shr x s, ?_⟩, ⟨_, exec_shl x s, ?_⟩⟩
  · rw [State.getV_setV_self, getV_setFlag_eq_afterFlag, shiftOutLow_eq]
    refine ⟨setsFlagThenVx_setV_setFlag s x _ _, ?_⟩
    rw [BitVec.toNat_ushiftRight, Nat.shiftRight_eq_div_pow, Nat.pow_one]
  · rw [State.getV_setV_self, getV_setFlag_eq_afterFlag, shiftOutHigh_eq]
    refine ⟨setsFlagThenVx_setV_setFlag s x _ _, ?_⟩
    rw [BitVec.toNat_shiftLeft, Nat.shiftLeft_eq, Nat.pow_one, Nat.mul_comm]

/-! ### RND and the addition to the index (R172, 46_memory_bcd_index.md R220) -/

theorem exec_rnd (x : Nibble) (kk : Byte) (s : State) :
    exec (.rnd x kk) s = .next (s.consumeDraw.setV x (s.getV x + (Config.randomByte s.draws &&& kk))) := rfl

/-- Settles O29: the addend is the drawn byte under the mask, a submask of `kk` whatever the byte is. -/
theorem rndAddsAMaskedRandomByte : Obligations.RndAddsAMaskedRandomByte := by
  intro x kk s
  have hsub : Config.randomByte s.draws &&& kk &&& ~~~kk = 0 := by
    rw [BitVec.and_assoc, BitVec.and_not_self]
    exact BitVec.and_zero
  have hx := s.consumeDraw.getV_setV_self x (s.getV x + (Config.randomByte s.draws &&& kk))
  exact ⟨_, exec_rnd x kk s, rfl, hx, ⟨_, hsub, hx⟩, fun r hr => State.getV_setV_of_ne hr s.consumeDraw _⟩

theorem exec_addI (x : Nibble) (s : State) : exec (.addI x) s = .next (s.setI (s.I + wideOf (s.getV x))) := rfl

/-- Settles O31: one write of `I`, the sum at 16 bits. -/
theorem addToIndexWraps : Obligations.AddToIndexWraps := by
  refine fun x s => ⟨_, exec_addI x s, rfl, ?_⟩
  rw [State.setI_I, BitVec.toNat_add, wideOf_toNat]

/-! ### The keypad (44_keypad.md) -/

theorem exec_skp (x : Nibble) (s : State) : exec (.skp x) s = skipIf (s.keyDown (keyIndexOf (s.getV x))) s := rfl

theorem exec_sknp (x : Nibble) (s : State) : exec (.sknp x) s = skipIf (!s.keyDown (keyIndexOf (s.getV x))) s := rfl

/-- The key a register names is the one whose index is its value modulo 16 (R203). -/
theorem keyDown_keyIndexOf (s : State) (v : Byte) : s.keyDown (keyIndexOf v) = s.key[v.toNat % 16]'(by omega) := by
  simp only [State.keyDown, keyIndexOf_toNat]

theorem skipIf_eq (c : Bool) (s : State) : skipIf c s = .next { s with PC := if c then s.PC + 2 else s.PC } := rfl

theorem skipIf_not (c : Bool) (s : State) : skipIf (!c) s = .next { s with PC := if c then s.PC else s.PC + 2 } := by
  cases c <;> rfl

/-- Settles O34: each is a skip on the named key. -/
theorem keySkipsReadTheNamedKey : Obligations.KeySkipsReadTheNamedKey := by
  intro x s
  rw [← keyDown_keyIndexOf]
  exact ⟨(exec_skp x s).trans (skipIf_eq _ s), (exec_sknp x s).trans (skipIf_not _ s)⟩

theorem exec_ldVxK_of_none {s : State} (h : ∀ k : Fin 16, s.key[k.val] = false) (x : Nibble) :
    exec (.ldVxK x) s = .next s.rewind := by
  simp only [exec, execLdVxK, s.lowestKey_eq_none_iff.2 h]

theorem exec_ldVxK_of_lowest {s : State} {k : Nat} (h : s.lowestKey = some k) (x : Nibble) :
    exec (.ldVxK x) s = .next (s.setV x (BitVec.ofNat 8 k)) := by
  simp only [exec, execLdVxK, h]

/-- The key-wait without a key only rewinds `PC`; with one it is one write of `Vx` (R202). -/
theorem exec_ldVxK_cases (x : Nibble) (s : State) :
    (∀ k : Fin 16, s.key[k.val] = false) ∧ exec (.ldVxK x) s = .next s.rewind ∨
    (¬∀ k : Fin 16, s.key[k.val] = false) ∧ ∃ v, exec (.ldVxK x) s = .next (s.setV x v) := by
  cases hk : s.lowestKey with
  | none =>
    have hup := s.lowestKey_eq_none_iff.1 hk
    exact .inl ⟨hup, exec_ldVxK_of_none hup x⟩
  | some k =>
    refine .inr ⟨fun hup => ?_, _, exec_ldVxK_of_lowest hk x⟩
    cases hk.symm.trans (s.lowestKey_eq_none_iff.2 hup)

/-- Settles O35: the scan finds no key, or the first pressed one, whose index a byte holds. -/
theorem keyWaitStoresTheLowestKeyOrRewinds : Obligations.KeyWaitStoresTheLowestKeyOrRewinds := by
  refine fun x s => ⟨fun h => exec_ldVxK_of_none h x, fun k hk hlt => ?_⟩
  refine ⟨_, exec_ldVxK_of_lowest (State.lowestKey_of_first hk hlt) x, ?_⟩
  rw [State.getV_setV_self]
  refine ⟨setsOnlyVx_setV s x _, ?_⟩
  rw [BitVec.toNat_ofNat, Nat.mod_eq_of_lt (by omega)]

end Sys2Proof.Machine
end

section
/-!
The memory instructions (spec/46_memory_bcd_index.md R222 to R225) and a store seen by the next fetch (spec/20_memory.md
R76): each completes where its range ends inside memory, and raises with nothing written elsewhere.
-/

namespace Sys2Proof.Machine

/-! ### Completion and fault of each -/

theorem exec_ldB_of_lt {s : State} (h : s.I.toNat + 2 < 4096) (x : Nibble) :
    exec (.ldB x) s = .next (s.storeBytes s.I.toNat (bcdDigits (s.getV x))) :=
  if_pos ((inRange_succ_iff _ 2).2 h)

theorem exec_ldB_of_ge {s : State} (h : 4096 ≤ s.I.toNat + 2) (x : Nibble) :
    exec (.ldB x) s = .next { s with halt := some .memoryAccessError } :=
  if_neg fun hin => Nat.not_lt.2 h ((inRange_succ_iff _ 2).1 hin)

theorem exec_ldMemVx_of_lt {s : State} {x : Nibble} (h : s.I.toNat + x.toNat < 4096) :
    exec (.ldMemVx x) s = .next (s.storeBytes s.I.toNat (s.v0Through x)) :=
  if_pos ((inRange_succ_iff _ _).2 h)

theorem exec_ldMemVx_of_ge {s : State} {x : Nibble} (h : 4096 ≤ s.I.toNat + x.toNat) :
    exec (.ldMemVx x) s = .next { s with halt := some .memoryAccessError } :=
  if_neg fun hin => Nat.not_lt.2 h ((inRange_succ_iff _ _).1 hin)

theorem exec_ldVxMem_of_lt {s : State} {x : Nibble} (h : s.I.toNat + x.toNat < 4096) :
    exec (.ldVxMem x) s = .next (s.setV0Through x fun k => s.byteAt (s.I.toNat + k)) :=
  if_pos ((inRange_succ_iff _ _).2 h)

theorem exec_ldVxMem_of_ge {s : State} {x : Nibble} (h : 4096 ≤ s.I.toNat + x.toNat) :
    exec (.ldVxMem x) s = .next { s with halt := some .memoryAccessError } :=
  if_neg fun hin => Nat.not_lt.2 h ((inRange_succ_iff _ _).1 hin)

theorem exec_ldB_cases (x : Nibble) (s : State) :
    s.I.toNat + 2 < 4096 ∧ exec (.ldB x) s = .next (s.storeBytes s.I.toNat (bcdDigits (s.getV x))) ∨
    4096 ≤ s.I.toNat + 2 ∧ exec (.ldB x) s = .next { s with halt := some .memoryAccessError } :=
  (Nat.lt_or_ge _ _).imp (fun h => ⟨h, exec_ldB_of_lt h x⟩) fun h => ⟨h, exec_ldB_of_ge h x⟩

theorem exec_ldMemVx_cases (x : Nibble) (s : State) :
    s.I.toNat + x.toNat < 4096 ∧ exec (.ldMemVx x) s = .next (s.storeBytes s.I.toNat (s.v0Through x)) ∨
    4096 ≤ s.I.toNat + x.toNat ∧ exec (.ldMemVx x) s = .next { s with halt := some .memoryAccessError } :=
  (Nat.lt_or_ge _ _).imp (fun h => ⟨h, exec_ldMemVx_of_lt h⟩) fun h => ⟨h, exec_ldMemVx_of_ge h⟩

theorem exec_ldVxMem_cases (x : Nibble) (s : State) :
    s.I.toNat + x.toNat < 4096 ∧
      exec (.ldVxMem x) s = .next (s.setV0Through x fun k => s.byteAt (s.I.toNat + k)) ∨
    4096 ≤ s.I.toNat + x.toNat ∧ exec (.ldVxMem x) s = .next { s with halt := some .memoryAccessError } :=
  (Nat.lt_or_ge _ _).imp (fun h => ⟨h, exec_ldVxMem_of_lt h⟩) fun h => ⟨h, exec_ldVxMem_of_ge h⟩

/-! ### Bytes after a store -/

section

variable {s : State} {a : Nat} {vs : List Byte} (hwf : s.mem.wf = true) (ha : a + vs.length ≤ 4096)
include hwf ha

theorem byteAt_storeBytes_inside {k : Nat} (hk : k < vs.length) :
    (s.storeBytes a vs).byteAt (a + k) = vs.getD k 0 := by
  rw [State.byteAt_storeBytes hwf ha, if_pos ⟨Nat.le_add_right a k, Nat.add_lt_add_left hk a⟩, Nat.add_sub_cancel_left]

theorem byteAt_storeBytes_outside {a' : Nat} (h : a' < a ∨ a + vs.length ≤ a') :
    (s.storeBytes a vs).byteAt a' = s.byteAt a' := by
  rw [State.byteAt_storeBytes hwf ha, if_neg (by omega)]

end

/-- Each decimal digit of a byte is its own value (R222). -/
theorem bcdDigits_toNat (v : Byte) :
    ((bcdDigits v).getD 0 0).toNat = v.toNat / 100 ∧ ((bcdDigits v).getD 1 0).toNat = v.toNat / 10 % 10 ∧
      ((bcdDigits v).getD 2 0).toNat = v.toNat % 10 := by
  simp only [bcdDigits, List.getD_cons_zero, List.getD_cons_succ, BitVec.toNat_ofNat]
  omega

/-- Settles O40: a store of the three digits, which are bytes. -/
theorem bcdStoreWritesThreeDigits : Obligations.BcdStoreWritesThreeDigits := by
  refine fun x s hwf => ⟨fun h => ⟨_, exec_ldB_of_lt h x, rfl, ?_⟩, fun h => exec_ldB_of_ge h x⟩
  have ha : s.I.toNat + (bcdDigits (s.getV x)).length ≤ 4096 := h
  have hbyte (k : Nat) (hk : k < 3) := byteAt_storeBytes_inside hwf ha (k := k) hk
  obtain ⟨hundreds, tens, ones⟩ := bcdDigits_toNat (s.getV x)
  refine ⟨?_, ?_, ?_, fun a hout => byteAt_storeBytes_outside hwf ha hout⟩
  · exact (congrArg _ (hbyte 0 (by decide))).trans hundreds
  · exact (congrArg _ (hbyte 1 (by decide))).trans tens
  · exact (congrArg _ (hbyte 2 (by decide))).trans ones

/-- A register that the dump writes is the byte at its place. -/
theorem byteAt_registerDump {s : State} {x : Nibble} (hwf : s.mem.wf = true) (h : s.I.toNat + x.toNat < 4096)
    {r : Nibble} (hr : r.toNat ≤ x.toNat) :
    (s.storeBytes s.I.toNat (s.v0Through x)).byteAt (s.I.toNat + r.toNat) = s.getV r := by
  have hlen := s.v0Through_length x
  rw [byteAt_storeBytes_inside hwf (by omega) (by omega), State.v0Through_getD s x r hr]

/-- Settles O41: a store of `V0` to `Vx`. -/
theorem registerDumpWritesV0ThroughVx : Obligations.RegisterDumpWritesV0ThroughVx := by
  refine fun x s hwf => ⟨fun h => ⟨_, exec_ldMemVx_of_lt h, rfl, fun r => byteAt_registerDump hwf h, fun a hout => ?_⟩,
    exec_ldMemVx_of_ge⟩
  have hlen := s.v0Through_length x
  exact byteAt_storeBytes_outside hwf (by omega) (by omega)

/-- Settles O42: the register load writes `V0` to `Vx` from the bytes at `I` on. -/
theorem registerLoadReadsV0ThroughVx : Obligations.RegisterLoadReadsV0ThroughVx := fun x s =>
  ⟨fun h => ⟨_, exec_ldVxMem_of_lt h, rfl, s.getV_setV0Through x _⟩, exec_ldVxMem_of_ge⟩

/-- Settles O43: the dump puts `V0` and `V1` at `I` and `I + 1`, where the next fetch reads. -/
theorem storedCodeIsFetched : Obligations.StoredCodeIsFetched := by
  intro x s hwf hPC hx h
  refine ⟨_, exec_ldMemVx_of_lt h, ?_⟩
  have h0 := byteAt_registerDump hwf h (r := 0) (Nat.zero_le _)
  have h1 := byteAt_registerDump hwf h (r := 1) hx
  rw [fetchWord_of_lt (by rw [State.storeBytes_PC, ← hPC]; omega), State.storeBytes_PC, ← hPC]
  exact congrArg some (congrArg₂ opcodeOfBytes h0 h1)

end Sys2Proof.Machine
end

section
/-!
Host operations (spec/47_host_operations.md): RESET, LOAD, SETKEY and FBREAD.
-/

namespace Sys2Proof.Machine

open Claims

/-- The registers of the state after RESET are zero. -/
theorem getV_resetOp (s : State) (r : Nibble) : (resetOp s).getV r = 0 := Vector.getElem_replicate _

/-- Settles O44: every component of `State.reset`, and the unlisted bytes of its memory. -/
theorem resetPutsEveryPieceAtItsResetValue : Obligations.ResetPutsEveryPieceAtItsResetValue :=
  ⟨rfl, fun s => ⟨resetOp s, rfl, rfl, getV_resetOp s, rfl, rfl, fun _ => Vector.getElem_replicate _, rfl, rfl,
    fun _ => Vector.getElem_replicate _, pixel_replicate false, rfl, fun _ => rfl⟩⟩

/-- Settles O45: a store of the image at `0x200`, or nothing. -/
theorem loadCopiesTheImage : Obligations.LoadCopiesTheImage := by
  refine fun image s hwf =>
    ⟨fun h => ⟨_, congrArg _ (loadOp_of_le h s), rfl, ?_⟩, fun h => congrArg _ (loadOp_of_lt h s)⟩
  exact State.byteAt_storeBytes hwf (by omega)

/-- Settles O46: one write of the key vector. -/
theorem setKeyChangesOneKey : Obligations.SetKeyChangesOneKey := by
  refine fun k pressed s => ⟨setKeyOp k pressed s, rfl, rfl, fun j => ?_⟩
  simp only [setKeyOp_key, Vector.getElem_set, eq_comm]

/-- Settles O47: the report is the framebuffer itself. -/
theorem fbReadReportsTheGrid : Obligations.FbReadReportsTheGrid := fun s => ⟨fbReadOp s, rfl, fun _ _ => rfl⟩

/-- Settles O48: memory is the empty list, `PC` is `0x200`, and the stack is zero. -/
theorem resetHasTheInvariant : Obligations.ResetHasTheInvariant := by
  refine fun s => ⟨rfl, (by decide : (0x200 : Word).toNat ≤ 0x10FE), fun j => ?_⟩
  rw [resetOp_stack, State.reset, Vector.getElem_replicate]
  decide

end Sys2Proof.Machine
end

section
/-!
The draw (spec/43_draw.md): the loops of R190 as the pixel formula. A loop toggles a set of pixels, each at most once,
so the sets of its rounds join; a round that toggles one pixel is `togglePixel`.
-/

namespace Sys2Proof.Machine

open Claims

/-! ### Toggling a set of pixels -/

/-- `cv'` is `cv` with every pixel of `bit` toggled, each once; a toggled pixel that was on is a collision (R194). -/
def Toggles (cv cv' : Canvas) (bit : Nat → Nat → Bool) : Prop :=
  (∀ (px : Fin 64) (py : Fin 32), pixel cv'.1 px py = Bool.xor (pixel cv.1 px py) (bit px.val py.val)) ∧
    (cv'.2 = true ↔
      cv.2 = true ∨ ∃ (px : Fin 64) (py : Fin 32), pixel cv.1 px py = true ∧ bit px.val py.val = true)

theorem toggles_none (cv : Canvas) : Toggles cv cv fun _ _ => false := by
  simp [Toggles]

/-- Two disjoint sets toggled in turn are their union toggled. -/
theorem Toggles.trans {cv cv' cv'' : Canvas} {bit bit' : Nat → Nat → Bool} (h : Toggles cv cv' bit)
    (h' : Toggles cv' cv'' bit') (hdisj : ∀ px py, bit px py = true → bit' px py = false) :
    Toggles cv cv'' fun px py => bit px py || bit' px py := by
  obtain ⟨hpix, hcol⟩ := h
  obtain ⟨hpix', hcol'⟩ := h'
  have hsecond : ∀ (px : Fin 64) (py : Fin 32), bit' px.val py.val = true → pixel cv'.1 px py = pixel cv.1 px py := by
    intro px py hb'
    cases hb : bit px.val py.val with
    | false => rw [hpix, hb, Bool.xor_false]
    | true => rw [hdisj _ _ hb] at hb'; cases hb'
  refine ⟨fun px py => ?_, ?_⟩ <;> beta_reduce
  · rw [hpix', hpix, Bool.xor_assoc]
    cases hb : bit px.val py.val with
    | false => rw [Bool.false_xor, Bool.false_or]
    | true => rw [hdisj _ _ hb, Bool.xor_false, Bool.true_or]
  · rw [hcol', hcol, or_assoc]
    refine or_congr_right ⟨?_, ?_⟩
    · rintro (⟨px, py, hp, hb⟩ | ⟨px, py, hp, hb⟩)
      · exact ⟨px, py, hp, by rw [hb, Bool.true_or]⟩
      · exact ⟨px, py, hsecond px py hb ▸ hp, by rw [hb, Bool.or_true]⟩
    · rintro ⟨px, py, hp, hb⟩
      obtain hb | hb := Bool.or_eq_true_iff.1 hb
      · exact .inl ⟨px, py, hp, hb⟩
      · exact .inr ⟨px, py, (hsecond px py hb).trans hp, hb⟩

/-- A loop whose rounds toggle pairwise disjoint sets toggles the union of the first `n`. -/
theorem toggles_foldl {f : Canvas → Nat → Canvas} {bit : Nat → Nat → Nat → Bool}
    (hf : ∀ cv i, Toggles cv (f cv i) (bit i))
    (hdisj : ∀ i j px py, bit i px py = true → bit j px py = true → i = j) (n : Nat) (cv : Canvas) :
    Toggles cv ((List.range n).foldl f cv) fun px py => (List.range n).any fun i => bit i px py := by
  induction n with
  | zero => exact toggles_none cv
  | succ n ih =>
    rw [List.range_succ, List.foldl_append]
    simp only [List.any_append, List.any_cons, List.any_nil, Bool.or_false]
    refine ih.trans (hf _ n) fun px py hb => Bool.eq_false_iff.2 fun hn => ?_
    obtain ⟨i, hi, hb⟩ := List.any_eq_true.1 hb
    exact absurd (hdisj i n px py hb hn) (List.mem_range.1 hi).ne

/-! ### Pixel, row, sprite -/

/-- One pixel: inside the grid its own cell, outside no cell (R193). -/
theorem toggles_togglePixel (x y : Nat) (cv : Canvas) :
    Toggles cv (togglePixel x y cv) fun px py => decide (px = x ∧ py = y) := by
  by_cases h : x < 64 ∧ y < 32
  · obtain ⟨hx, hy⟩ := h
    obtain ⟨hcell, hcol⟩ := togglePixel_inside hx hy cv
    refine ⟨fun px py => ?_, ?_⟩ <;> beta_reduce
    · rw [pixel, hcell]
      have hiff : py.val * 64 + px.val = y * 64 + x ↔ px.val = x ∧ py.val = y := by omega
      by_cases e : px.val = x ∧ py.val = y
      · rw [if_pos (hiff.2 e), decide_eq_true e, Bool.xor_true]
        rfl
      · rw [if_neg (mt hiff.1 e), decide_eq_false e, Bool.xor_false]
        rfl
    · rw [hcol, Bool.or_eq_true]
      refine or_congr_right ⟨fun hon => ⟨⟨x, hx⟩, ⟨y, hy⟩, hon, decide_eq_true ⟨rfl, rfl⟩⟩, ?_⟩
      rintro ⟨px, py, hon, hb⟩
      obtain ⟨rfl, rfl⟩ := of_decide_eq_true hb
      exact hon
  · rw [togglePixel_outside h]
    have hb : ∀ (px : Fin 64) (py : Fin 32), decide (px.val = x ∧ py.val = y) = false :=
      fun px py => decide_eq_false fun ⟨ex, ey⟩ => h ⟨ex ▸ px.isLt, ey ▸ py.isLt⟩
    simp [Toggles, hb]

/-- The pixel of column `c`, if the row's byte has a 1 there. -/
def columnBit (b : Byte) (x0 y c px py : Nat) : Bool := b.getLsbD (7 - c) && decide (px = x0 + c ∧ py = y)

theorem columnBit_iff {b : Byte} {x0 y c px py : Nat} :
    columnBit b x0 y c px py = true ↔ b.getLsbD (7 - c) = true ∧ px = x0 + c ∧ py = y := by
  rw [columnBit, Bool.and_eq_true, decide_eq_true_eq]

theorem toggles_drawColumn (b : Byte) (x0 y : Nat) (cv : Canvas) (c : Nat) :
    Toggles cv (drawColumn b x0 y cv c) (columnBit b x0 y c) := by
  unfold drawColumn columnBit
  cases b.getLsbD (7 - c) with
  | true => exact toggles_togglePixel (x0 + c) y cv
  | false => exact toggles_none cv

/-- The pixels of one sprite row. -/
def rowBit (b : Byte) (x0 y px py : Nat) : Bool := (List.range 8).any fun c => columnBit b x0 y c px py

theorem rowBit_iff {b : Byte} {x0 y px py : Nat} :
    rowBit b x0 y px py = true ↔ py = y ∧ x0 ≤ px ∧ px < x0 + 8 ∧ b.getLsbD (7 - (px - x0)) = true := by
  simp only [rowBit, List.any_eq_true, List.mem_range, columnBit_iff]
  constructor
  · rintro ⟨c, hc, hb, rfl, rfl⟩
    exact ⟨rfl, by omega, by omega, by rwa [Nat.add_sub_cancel_left]⟩
  · rintro ⟨rfl, hx, hlt, hb⟩
    exact ⟨px - x0, by omega, hb, by omega, rfl⟩

theorem toggles_drawRow (b : Byte) (x0 y : Nat) (cv : Canvas) : Toggles cv (drawRow b x0 y cv) (rowBit b x0 y) := by
  refine toggles_foldl (toggles_drawColumn b x0 y) (fun i j px py hi hj => ?_) 8 cv
  obtain ⟨-, hi, -⟩ := columnBit_iff.1 hi
  obtain ⟨-, hj, -⟩ := columnBit_iff.1 hj
  omega

/-- The rows of a sprite together are its formula. -/
theorem any_rowBit_eq_spriteBit (m : Memory) (base x0 y0 n px py : Nat) :
    ((List.range n).any fun r => rowBit (m.read (base + r)) x0 (y0 + r) px py) = spriteBit m base x0 y0 n px py := by
  rw [Bool.eq_iff_iff, spriteBit, Bool.and_eq_true, decide_eq_true_eq]
  simp only [List.any_eq_true, List.mem_range, rowBit_iff]
  constructor
  · rintro ⟨r, hr, rfl, hx, hlt, hb⟩
    exact ⟨⟨hx, hlt, by omega, by omega⟩, by rwa [Nat.add_sub_cancel_left]⟩
  · rintro ⟨⟨hx, hlt, hy, hyn⟩, hb⟩
    exact ⟨py - y0, by omega, by omega, hx, hlt, hb⟩

/-- The loops of R190 are the pixel formula of R191. -/
theorem toggles_drawSprite (m : Memory) (base x0 y0 n : Nat) (cv : Canvas) :
    Toggles cv (drawSprite m base x0 y0 n cv) (spriteBit m base x0 y0 n) := by
  have hrows := toggles_foldl (f := fun cv r => drawRow (m.read (base + r)) x0 (y0 + r) cv)
    (fun cv r => toggles_drawRow (m.read (base + r)) x0 (y0 + r) cv) (fun i j px py hi hj => ?_) n cv
  · simp only [any_rowBit_eq_spriteBit] at hrows
    exact hrows
  · obtain ⟨hi, -⟩ := rowBit_iff.1 hi
    obtain ⟨hj, -⟩ := rowBit_iff.1 hj
    omega

/-! ### The handler -/

/-- The canvas a draw leaves: the sprite at `I` of `n` rows, drawn from the origin its registers name. -/
def State.drawn (s : State) (x y n : Nibble) : Canvas :=
  drawSprite s.mem s.I.toNat ((s.getV x).toNat % 64) ((s.getV y).toNat % 32) n.toNat (s.fb, false)

theorem exec_drw_of_inside {s : State} {n : Nibble} (h : n.toNat = 0 ∨ s.I.toNat + n.toNat - 1 < 4096) (x y : Nibble) :
    exec (.drw x y n) s = .next ({ s with fb := (s.drawn x y n).1 }.setFlag (s.drawn x y n).2) :=
  if_pos ((inRange_iff _ _).2 h)

theorem exec_drw_of_outside {s : State} {n : Nibble} (h : ¬(n.toNat = 0 ∨ s.I.toNat + n.toNat - 1 < 4096))
    (x y : Nibble) : exec (.drw x y n) s = .next { s with halt := some .memoryAccessError } :=
  if_neg (mt (inRange_iff _ _).1 h)

theorem exec_drw_cases (x y n : Nibble) (s : State) :
    (n.toNat = 0 ∨ s.I.toNat + n.toNat - 1 < 4096) ∧
      exec (.drw x y n) s = .next ({ s with fb := (s.drawn x y n).1 }.setFlag (s.drawn x y n).2) ∨
    ¬(n.toNat = 0 ∨ s.I.toNat + n.toNat - 1 < 4096) ∧
      exec (.drw x y n) s = .next { s with halt := some .memoryAccessError } :=
  (Decidable.em _).imp (fun h => ⟨h, exec_drw_of_inside h x y⟩) fun h => ⟨h, exec_drw_of_outside h x y⟩

/-- Settles O32: the loops toggle the sprite's pixels, and the collision they report is what the flag is written to. -/
theorem drwCompositesTheSprite : Obligations.DrwCompositesTheSprite := by
  intro x y n s h
  obtain ⟨hpix, hcol⟩ := toggles_drawSprite s.mem s.I.toNat ((s.getV x).toNat % 64) ((s.getV y).toNat % 32) n.toNat
    (s.fb, false)
  refine ⟨_, exec_drw_of_inside h x y, rfl, hpix, ?_, fun r hr => ?_⟩
  · rw [State.getV_setFlag, if_pos rfl, flagByte]
    exact if_congr (hcol.trans (or_iff_right Bool.false_ne_true)) rfl rfl
  · rw [State.getV_setFlag, if_neg hr]
    rfl

/-- Framebuffers with the same pixels are the same. -/
theorem fb_ext {fb fb' : Framebuffer} (h : ∀ px py, pixel fb px py = pixel fb' px py) : fb = fb' := by
  refine Vector.ext fun q hq => ?_
  have hcell := h ⟨q % 64, by omega⟩ ⟨q / 64, by omega⟩
  simpa only [pixel, Nat.div_add_mod'] using hcell

/-- Settles O33: the second draw has the sprite and the origin of the first, since it reads no flag; so it toggles the
same pixels back, and of a clear display it meets what the first one drew. -/
theorem drawingTwiceErases : Obligations.DrawingTwiceErases := by
  intro x y n s hx hy h
  obtain ⟨t, hexec, hframe, hpix, hflag, hV⟩ := drwCompositesTheSprite x y n s h
  have hmem : t.mem = s.mem := by rw [hframe]
  have hI : t.I = s.I := by rw [hframe]
  obtain ⟨u, hexec', -, hpix', hflag', -⟩ := drwCompositesTheSprite x y n t.advance (by rwa [State.advance_I, hI])
  have hsame : ∀ r, r ≠ 0xF → t.advance.getV r = s.getV r := hV
  rw [State.advance_mem, State.advance_I, hmem, hI, hsame x hx, hsame y hy] at hpix' hflag'
  refine ⟨t, u, hexec, hexec', fb_ext fun px py => ?_, fun hclear => ?_⟩
  · rw [hpix', State.advance_fb, hpix, Bool.xor_assoc, Bool.xor_self, Bool.xor_false]
  · have hdrawn : ∀ px py, pixel t.fb px py =
        spriteBit s.mem s.I.toNat ((s.getV x).toNat % 64) ((s.getV y).toNat % 32) n.toNat px.val py.val := by
      intro px py
      rw [hpix, hclear, Bool.false_xor]
    simp only [hclear, Bool.false_eq_true, false_and, exists_false, if_false] at hflag
    simp only [State.advance_fb, ← hdrawn, and_self] at hflag'
    exact ⟨hflag, hflag'⟩

end Sys2Proof.Machine
end

section
/-!
Every handler at once: it completes or raises its condition (spec/60_exceptions.md R263, R280), and writes only what the
access matrix marks (spec/10_state.md R40).
-/

namespace Sys2Proof.Machine

open Claims

/-! ### Completion or condition -/

/-- What the statement on completion says of one handler. -/
def CompletesOrRaises (i : Instr) (s : State) : Prop :=
  (∀ c, raisedBy i s = some c → exec i s = .next { s with halt := some c }) ∧
    (raisedBy i s = none → ∃ t, exec i s = .next t ∧ t.halt = s.halt)

theorem completesOrRaises_of_next {i : Instr} {s t : State} (hr : raisedBy i s = none) (h : exec i s = .next t)
    (hhalt : t.halt = s.halt) : CompletesOrRaises i s := by
  refine ⟨fun c hc => ?_, fun _ => ⟨t, h, hhalt⟩⟩
  cases hr.symm.trans hc

theorem completesOrRaises_of_raise {i : Instr} {s : State} {c : Fault} (hr : raisedBy i s = some c)
    (h : exec i s = .next { s with halt := some c }) : CompletesOrRaises i s := by
  refine ⟨fun c' hc => ?_, fun hn => ?_⟩
  · cases hr.symm.trans hc
    exact h
  · cases hr.symm.trans hn

/-- Settles O11: the six handlers that check something, on either side of the check; the key-wait, with and without a
key; and the rest, which complete at once. -/
theorem everyHandlerCompletesOrRaisesItsCondition : Obligations.EveryHandlerCompletesOrRaisesItsCondition := by
  intro i s
  cases i with
  | ret =>
    obtain ⟨hpos, h⟩ | ⟨hempty, h⟩ := exec_ret_cases s
    · exact completesOrRaises_of_next (if_neg hpos.ne') h rfl
    · exact completesOrRaises_of_raise (if_pos hempty) h
  | call nnn =>
    obtain ⟨hlt, h⟩ | ⟨hfull, h⟩ := exec_call_cases nnn s
    · exact completesOrRaises_of_next (if_neg hlt.ne) h rfl
    · exact completesOrRaises_of_raise (if_pos hfull) h
  | drw x y n =>
    obtain ⟨hin, h⟩ | ⟨hout, h⟩ := exec_drw_cases x y n s
    · exact completesOrRaises_of_next (if_neg (by omega)) h rfl
    · exact completesOrRaises_of_raise (if_pos (by omega)) h
  | ldB x =>
    obtain ⟨hlt, h⟩ | ⟨hge, h⟩ := exec_ldB_cases x s
    · exact completesOrRaises_of_next (if_neg hlt.not_ge) h rfl
    · exact completesOrRaises_of_raise (if_pos hge) h
  | ldMemVx x =>
    obtain ⟨hlt, h⟩ | ⟨hge, h⟩ := exec_ldMemVx_cases x s
    · exact completesOrRaises_of_next (if_neg hlt.not_ge) h rfl
    · exact completesOrRaises_of_raise (if_pos hge) h
  | ldVxMem x =>
    obtain ⟨hlt, h⟩ | ⟨hge, h⟩ := exec_ldVxMem_cases x s
    · exact completesOrRaises_of_next (if_neg hlt.not_ge) h rfl
    · exact completesOrRaises_of_raise (if_pos hge) h
  | ldVxK x => obtain ⟨-, h⟩ | ⟨-, v, h⟩ := exec_ldVxK_cases x s <;> exact completesOrRaises_of_next rfl h rfl
  | _ => exact completesOrRaises_of_next rfl rfl rfl

/-- A handler answers a next state. -/
theorem exec_answers (i : Instr) (s : State) : ∃ t, exec i s = .next t := by
  obtain ⟨hraise, hcomplete⟩ := everyHandlerCompletesOrRaisesItsCondition i s
  cases hr : raisedBy i s with
  | some c => exact ⟨_, hraise c hr⟩
  | none => exact (hcomplete hr).imp fun _ => And.left

/-! ### The access matrix (R40) -/

/-- The clauses of the access matrix for the instruction `i`, of a state `t` it leaves. -/
structure WritesOnlyMarked (i : Instr) (s t : State) : Prop where
  V : ∀ r, mayWriteV i r = false → t.getV r = s.getV r
  I : mayWriteI i = false → t.I = s.I
  PC : mayWritePC i = false → t.PC = s.PC
  SP : mayWriteSP i = false → t.SP = s.SP
  stack : mayWriteStack i = false → t.stack = s.stack
  fb : mayWriteFb i = false → t.fb = s.fb
  mem : mayWriteMem i = false → t.mem = s.mem
  DT : mayWriteDT i = false → t.DT = s.DT
  ST : mayWriteST i = false → t.ST = s.ST
  draws : mayDraw i = false → t.draws = s.draws
  key : t.key = s.key

namespace WritesOnlyMarked

theorem refl (i : Instr) (s : State) : WritesOnlyMarked i s s :=
  ⟨fun _ _ => rfl, fun _ => rfl, fun _ => rfl, fun _ => rfl, fun _ => rfl, fun _ => rfl, fun _ => rfl, fun _ => rfl,
    fun _ => rfl, fun _ => rfl, rfl⟩

/-- A marked column asks nothing. -/
theorem of_marked {m : Bool} {p : Prop} (hm : m = true) (hn : m = false) : p :=
  Bool.noConfusion (hm.symm.trans hn)

variable {i : Instr} {s t : State} (h : WritesOnlyMarked i s t)
include h

/-! One write of a marked component more. -/

theorem setRegisters {v : Vector Byte 16}
    (hV : ∀ r, mayWriteV i r = false → ({ t with V := v } : State).getV r = t.getV r) :
    WritesOnlyMarked i s { t with V := v } :=
  { h with V := fun r hr => (hV r hr).trans (h.V r hr) }

theorem setV {x : Nibble} (hm : mayWriteV i x = true) (v : Byte) : WritesOnlyMarked i s (t.setV x v) :=
  h.setRegisters fun _ hr => State.getV_setV_of_ne (fun e => of_marked (e.symm ▸ hm) hr) t v

theorem setV0Through {x : Nibble} (hm : ∀ r : Nibble, r.toNat ≤ x.toNat → mayWriteV i r = true) (f : Nat → Byte) :
    WritesOnlyMarked i s (t.setV0Through x f) :=
  h.setRegisters fun r hr => (t.getV_setV0Through x f r).trans (if_neg fun hle => of_marked (hm r hle) hr)

theorem setI (hm : mayWriteI i = true) (v : Word) : WritesOnlyMarked i s { t with I := v } :=
  { h with I := of_marked hm }

theorem setPC (hm : mayWritePC i = true) (v : Word) : WritesOnlyMarked i s { t with PC := v } :=
  { h with PC := of_marked hm }

theorem setSP (hm : mayWriteSP i = true) (v : Fin 17) : WritesOnlyMarked i s { t with SP := v } :=
  { h with SP := of_marked hm }

theorem setStack (hm : mayWriteStack i = true) (v : Vector Word 16) : WritesOnlyMarked i s { t with stack := v } :=
  { h with stack := of_marked hm }

theorem setFb (hm : mayWriteFb i = true) (v : Framebuffer) : WritesOnlyMarked i s { t with fb := v } :=
  { h with fb := of_marked hm }

theorem setMem (hm : mayWriteMem i = true) (v : Memory) : WritesOnlyMarked i s { t with mem := v } :=
  { h with mem := of_marked hm }

theorem setDT (hm : mayWriteDT i = true) (v : Byte) : WritesOnlyMarked i s { t with DT := v } :=
  { h with DT := of_marked hm }

theorem setST (hm : mayWriteST i = true) (v : Byte) : WritesOnlyMarked i s { t with ST := v } :=
  { h with ST := of_marked hm }

theorem setDraws (hm : mayDraw i = true) (v : Nat) : WritesOnlyMarked i s { t with draws := v } :=
  { h with draws := of_marked hm }

/-- The latch is no column of the matrix. -/
theorem setHalt (v : Option Fault) : WritesOnlyMarked i s { t with halt := v } := { h with }

end WritesOnlyMarked

/-- A handler writes its marked components one after the other, or the latch. -/
theorem exec_writesOnlyMarked {i : Instr} {s t : State} (h : exec i s = .next t) : WritesOnlyMarked i s t := by
  have h0 := WritesOnlyMarked.refl i s
  cases i with
  | cls => cases h; exact h0.setFb rfl _
  | ret =>
    obtain ⟨hpos, h'⟩ | ⟨-, h'⟩ := exec_ret_cases s <;> cases h'.symm.trans h
    · exact (h0.setSP rfl (s.pop hpos).SP).setPC rfl (s.pop hpos).PC
    · exact h0.setHalt _
  | call nnn =>
    obtain ⟨hlt, h'⟩ | ⟨-, h'⟩ := exec_call_cases nnn s <;> cases h'.symm.trans h
    · exact ((h0.setStack rfl (s.push hlt).stack).setSP rfl (s.push hlt).SP).setPC rfl _
    · exact h0.setHalt _
  | jp | jpV0 | seImm | sneImm | seReg | sneReg | skp | sknp => cases h; exact h0.setPC rfl _
  | ldImm x | addImm x | ldReg x | orReg x | andReg x | xorReg x | ldVxDt x =>
    cases h
    exact h0.setV (beq_self_eq_true x) _
  | addReg x | sub x | subn x | shr x | shl x =>
    cases h
    exact (h0.setV (x := 0xF) (Bool.or_true _) _).setV (by rw [mayWriteV, beq_self_eq_true, Bool.true_or]) _
  | rnd x kk => cases h; exact (h0.setDraws rfl _).setV (beq_self_eq_true x) _
  | ldI | addI | ldF => cases h; exact h0.setI rfl _
  | ldDtVx => cases h; exact h0.setDT rfl _
  | ldStVx => cases h; exact h0.setST rfl _
  | unknown => cases h; exact h0
  | ldVxK x =>
    obtain ⟨-, h'⟩ | ⟨-, v, h'⟩ := exec_ldVxK_cases x s <;> cases h'.symm.trans h
    · exact h0.setPC rfl _
    · exact h0.setV (beq_self_eq_true x) _
  | drw x y n =>
    obtain ⟨-, h'⟩ | ⟨-, h'⟩ := exec_drw_cases x y n s <;> cases h'.symm.trans h
    · exact (h0.setFb rfl _).setV rfl _
    · exact h0.setHalt _
  | ldB x =>
    obtain ⟨-, h'⟩ | ⟨-, h'⟩ := exec_ldB_cases x s <;> cases h'.symm.trans h
    · exact h0.setMem rfl _
    · exact h0.setHalt _
  | ldMemVx x =>
    obtain ⟨-, h'⟩ | ⟨-, h'⟩ := exec_ldMemVx_cases x s <;> cases h'.symm.trans h
    · exact h0.setMem rfl _
    · exact h0.setHalt _
  | ldVxMem x =>
    obtain ⟨-, h'⟩ | ⟨-, h'⟩ := exec_ldVxMem_cases x s <;> cases h'.symm.trans h
    · exact h0.setV0Through (fun _ => decide_eq_true) _
    · exact h0.setHalt _

/-- Settles O51: the clauses are the fields of `WritesOnlyMarked`. -/
theorem instructionsWriteOnlyWhatTheMatrixMarks : Obligations.InstructionsWriteOnlyWhatTheMatrixMarks := by
  intro i s t h
  obtain ⟨hV, hI, hPC, hSP, hstack, hfb, hmem, hDT, hST, hdraws, hkey⟩ := exec_writesOnlyMarked h
  exact ⟨hV, hI, hPC, hSP, hstack, hfb, hmem, hDT, hST, hdraws, hkey⟩

end Sys2Proof.Machine
end

section
/-!
The cycle (spec/40_engine_and_dispatch.md R120 to R128) and its reports, and the latch (spec/60_exceptions.md R271).
-/

namespace Sys2Proof.Machine

open Claims

/-- Settles O7: the fetch joins the two bytes, and the handler runs on the advanced state. -/
theorem stepRunsTheDecodedInstruction : Obligations.StepRunsTheDecodedInstruction := by
  rintro s hi lo i hh hPC rfl rfl hdecode
  cases hdecode
  exact step_of_fetch hh (fetchWord_of_lt hPC)

/-- Settles O8: there is no word to fetch, so the condition is raised in the state as it stands. -/
theorem fetchFaultsAtTheEdgeOfMemory : Obligations.FetchFaultsAtTheEdgeOfMemory := fun s hh hPC =>
  perform_cycle_of_step (step_of_fetch_fault hh ((fetchWord_eq_none_iff s).2 hPC))

theorem cycleReply_of_halted {s : State} {c : Fault} (h : s.halt = some c) : cycleReply s = .fault c := by
  simp only [cycleReply, h]

/-- Settles O9: the step leaves the halted state, whose latch is the report. -/
theorem haltedCycleChangesNothing : Obligations.HaltedCycleChangesNothing := fun s c h => by
  rw [perform_cycle_of_step (step_of_halted h), cycleReply_of_halted h]

theorem loadOp_halt (image : List Byte) (s : State) : (loadOp image s).1.halt = s.halt := by
  obtain h | h := Nat.lt_or_ge 3584 image.length
  · rw [loadOp_of_lt h]
  · rw [loadOp_of_le h, State.storeBytes_halt]

/-- Settles O10: RESET writes `none`, the other host operations write no latch, and a halted cycle writes nothing. -/
theorem onlyResetClearsTheLatch : Obligations.OnlyResetClearsTheLatch := by
  intro op s t c r hh h
  cases op with
  | reset => cases h; rfl
  | load image =>
    have ht : (loadOp image s).1 = t := congrArg Prod.fst (Host.Outcome.next.inj h)
    rw [← ht, loadOp_halt, hh]
    rfl
  | setKey | tick | fbRead => cases h; exact hh
  | cycle => cases (haltedCycleChangesNothing s c hh).symm.trans h; exact hh

/-- Settles O12: the report is read off the latch, which the handler sets to its condition or leaves open. -/
theorem cycleReportsOkOrTheCondition : Obligations.CycleReportsOkOrTheCondition := by
  intro s w hh hf
  have hstep : step s = exec (decode w) { s with PC := s.PC + 2 } := step_of_fetch hh hf
  obtain ⟨hraise, hcomplete⟩ := everyHandlerCompletesOrRaisesItsCondition (decode w) { s with PC := s.PC + 2 }
  split
  case h_1 c hc => exact perform_cycle_of_step (hstep.trans (hraise c hc))
  case h_2 hn =>
    obtain ⟨t, ht, hhalt⟩ := hcomplete hn
    refine ⟨t, ?_, hhalt.trans hh⟩
    rw [perform_cycle_of_step (hstep.trans ht), cycleReply_of_running (hhalt.trans hh)]

theorem step_answers (s : State) : ∃ t, step s = .next t := by
  obtain ⟨_, -, hs⟩ | ⟨-, -, hs⟩ | ⟨w, -, -, hs⟩ := step_cases s
  · exact ⟨_, hs⟩
  · exact ⟨_, hs⟩
  · exact hs ▸ exec_answers (decode w) s.advance

/-- Settles O13: the host operations answer at once, and CYCLE because every handler does. -/
theorem everyOperationAnswers : Obligations.EveryOperationAnswers := by
  intro op s
  cases op with
  | cycle => exact (step_answers s).imp fun t ht => ⟨_, perform_cycle_of_step ht⟩
  | _ => exact ⟨_, _, rfl⟩

/-- Settles O36: the rewind takes back the advance. -/
theorem keyWaitPollsWithoutChange : Obligations.KeyWaitPollsWithoutChange := by
  intro s w x hh hf hd hup
  have hstep : step s = .next s := by
    rw [step_of_fetch hh hf, hd, exec_ldVxK_of_none (s := s.advance) hup, State.rewind, State.advance_PC,
      BitVec.add_sub_cancel]
    rfl
  rw [perform_cycle_of_step hstep, cycleReply_of_running hh]

end Sys2Proof.Machine
end

section
/-!
`PC` after a cycle (spec/10_state.md R26), the fixed points of a step (spec/70_reset_and_hazards.md R311), and the
invariant of the machine.
-/

namespace Sys2Proof.Machine

open Claims

/-! ### `PC` after a cycle -/

theorem pcAfter_of_unmarked {i : Instr} (h : mayWritePC i = false) (s : State) : pcAfter i s = s.PC + 2 := by
  cases i with
  | ret | jp | call | jpV0 | seImm | sneImm | seReg | sneReg | skp | sknp | ldVxK => cases h
  | _ => rfl

theorem skipIf_advance (c : Bool) (s : State) :
    skipIf c s.advance = .next (s.setPC (if c then s.PC + 4 else s.PC + 2)) := by
  cases c with
  | false => rfl
  | true => exact congrArg (fun pc => Host.Outcome.next (s.setPC pc)) (BitVec.add_assoc s.PC 2 2)

theorem addrOf_eq_ofNat (nnn : Imm12) : addrOf nnn = BitVec.ofNat 16 nnn.toNat := by
  rw [← addrOf_toNat, BitVec.ofNat_toNat, BitVec.setWidth_eq]

theorem addrOf_add_wideOf (nnn : Imm12) (v : Byte) : addrOf nnn + wideOf v = BitVec.ofNat 16 (nnn.toNat + v.toNat) := by
  apply BitVec.eq_of_toNat_eq
  rw [addrOf_add_wideOf_toNat, BitVec.toNat_ofNat, Nat.mod_eq_of_lt (by omega)]

/-- A handler that runs on the advanced state leaves `PC` where the table of R26 says. -/
theorem exec_advance_PC {i : Instr} {s t : State} (h : exec i s.advance = .next t) : t.PC = pcAfter i s := by
  cases hm : mayWritePC i with
  | false => rw [(exec_writesOnlyMarked h).PC hm, pcAfter_of_unmarked hm, State.advance_PC]
  | true =>
    cases i with
    | jp nnn => cases h; exact addrOf_eq_ofNat nnn
    | jpV0 nnn => cases h; exact addrOf_add_wideOf nnn _
    | ret =>
      obtain ⟨hpos, h'⟩ | ⟨hempty, h'⟩ := exec_ret_cases s.advance <;> cases h'.symm.trans h
      · exact (if_neg hpos.ne').symm
      · exact (if_pos hempty).symm
    | call nnn =>
      obtain ⟨hlt, h'⟩ | ⟨hfull, h'⟩ := exec_call_cases nnn s.advance <;> cases h'.symm.trans h
      · exact (addrOf_eq_ofNat nnn).trans (if_neg hlt.ne).symm
      · exact (if_pos hfull).symm
    | seImm | sneImm | seReg | sneReg => cases (skipIf_advance _ s).symm.trans h; rfl
    | skp | sknp =>
      cases (skipIf_advance _ s).symm.trans h
      rw [State.setPC_PC, keyDown_keyIndexOf]
      rfl
    | ldVxK x =>
      obtain ⟨hup, h'⟩ | ⟨hdown, v, h'⟩ := exec_ldVxK_cases x s.advance <;> cases h'.symm.trans h
      · exact (BitVec.add_sub_cancel s.PC 2).trans (if_pos hup).symm
      · exact (if_neg hdown).symm
    | _ => cases hm

/-- Settles O14: every handler answers, and leaves `PC` where the table says. -/
theorem pcAfterEveryCycle : Obligations.PcAfterEveryCycle := by
  intro s w hh hf
  obtain ⟨t, ht⟩ := exec_answers (decode w) s.advance
  exact ⟨t, (step_of_fetch hh hf).trans ht, exec_advance_PC ht⟩

/-! ### Fixed points -/

theorem add_two_ne (pc : Word) : pc + 2 ≠ pc := mt BitVec.add_right_eq_self.1 (by decide)

/-- A skip moves `PC` on, whether its condition holds or not. -/
theorem skip_ne (c : Bool) (pc : Word) : (if c then pc + 4 else pc + 2) ≠ pc := by
  cases c with
  | false => exact add_two_ne pc
  | true => exact mt BitVec.add_right_eq_self.1 (by decide)

/-- What an instruction that leaves the whole state of its cycle as it was must be. -/
theorem fixedPoint_of_exec {i : Instr} {s : State} (hh : s.halt = none) (h : exec i s.advance = .next s) :
    (∃ nnn, i = .jp nnn ∧ nnn.toNat = s.PC.toNat) ∨
    (∃ nnn, i = .jpV0 nnn ∧ nnn.toNat + (s.getV 0).toNat = s.PC.toNat) ∨
    ∃ x, i = .ldVxK x ∧ ∀ k : Fin 16, s.key[k.val] = false := by
  have hPC : s.PC = pcAfter i s := exec_advance_PC h
  cases hm : mayWritePC i with
  | false => exact absurd ((pcAfter_of_unmarked hm s).symm.trans hPC.symm) (add_two_ne s.PC)
  | true =>
    cases i with
    | jp nnn => exact .inl ⟨nnn, rfl, by rw [hPC, ← addrOf_toNat]; exact congrArg _ (addrOf_eq_ofNat nnn)⟩
    | jpV0 nnn =>
      refine .inr (.inl ⟨nnn, rfl, ?_⟩)
      rw [hPC, ← addrOf_add_wideOf_toNat]
      exact congrArg _ (addrOf_add_wideOf nnn _)
    | ldVxK x =>
      refine .inr (.inr ⟨x, rfl, Decidable.byContradiction fun hdown => ?_⟩)
      exact absurd (hPC.trans (if_neg hdown)).symm (add_two_ne s.PC)
    | ret =>
      obtain ⟨hpos, h'⟩ | ⟨-, h'⟩ := exec_ret_cases s.advance
      · have hSP : s.SP.val - 1 = s.SP.val := congrArg (fun t => t.SP.val) (Host.Outcome.next.inj (h'.symm.trans h))
        have : 0 < s.SP.val := hpos
        omega
      · cases (congrArg State.halt (Host.Outcome.next.inj (h'.symm.trans h))).trans hh
    | call nnn =>
      obtain ⟨hlt, h'⟩ | ⟨-, h'⟩ := exec_call_cases nnn s.advance
      · have hSP : s.SP.val + 1 = s.SP.val := congrArg (fun t => t.SP.val) (Host.Outcome.next.inj (h'.symm.trans h))
        omega
      · cases (congrArg State.halt (Host.Outcome.next.inj (h'.symm.trans h))).trans hh
    | seImm | sneImm | seReg | sneReg | skp | sknp => exact absurd hPC.symm (skip_ne _ s.PC)
    | _ => cases hm

/-- A jump to the address it was fetched from takes back the advance. -/
theorem advance_setPC_self {s : State} {pc : Word} (h : pc = s.PC) : s.advance.setPC pc = s := by
  subst h
  rfl

/-- Settles O54: a fixed point leaves `PC` where it was, which only these three can do. -/
theorem fixedPointsAreSelfJumpsAndKeyWaits : Obligations.FixedPointsAreSelfJumpsAndKeyWaits := by
  intro s w hh hf
  rw [step_of_fetch hh hf]
  refine ⟨fixedPoint_of_exec hh, ?_⟩
  rintro (⟨nnn, hd, hPC⟩ | ⟨nnn, hd, hPC⟩ | ⟨x, hd, hup⟩) <;> rw [hd]
  · exact congrArg _ (advance_setPC_self (BitVec.eq_of_toNat_eq ((addrOf_toNat nnn).trans hPC)))
  · exact congrArg _ (advance_setPC_self (BitVec.eq_of_toNat_eq ((addrOf_add_wideOf_toNat nnn _).trans hPC)))
  · rw [exec_ldVxK_of_none (s := s.advance) hup]
    exact congrArg _ (advance_setPC_self (BitVec.add_sub_cancel s.PC 2))

/-! ### The invariant -/

/-- `PC` after a cycle stays at or below `0x10FE`, the highest target of JP V0,nnn (R26). -/
theorem pcAfter_le {s : State} (hPC : s.PC.toNat + 1 < 4096) (hstack : ∀ j : Fin 16, s.stack[j.val].toNat ≤ 0x1000)
    (i : Instr) : (pcAfter i s).toNat ≤ 0x10FE := by
  have h2 : (s.PC + 2).toNat ≤ 0x10FE := by rw [advance_PC_toNat hPC]; omega
  have h4 : (s.PC + 4).toNat ≤ 0x10FE := by rw [BitVec.toNat_add]; simp; omega
  have hskip : ∀ c : Bool, (if c then s.PC + 4 else s.PC + 2).toNat ≤ 0x10FE := by
    intro c
    cases c with
    | false => exact h2
    | true => exact h4
  cases i with
  | seImm | sneImm | seReg | sneReg | skp | sknp => exact hskip _
  | jp nnn => exact (congrArg _ (addrOf_eq_ofNat nnn)).symm.trans_le (by rw [addrOf_toNat]; omega)
  | jpV0 nnn => exact (congrArg _ (addrOf_add_wideOf nnn _)).symm.trans_le (by rw [addrOf_add_wideOf_toNat]; omega)
  | call nnn =>
    simp only [pcAfter]
    split
    · exact h2
    · rw [← addrOf_eq_ofNat, addrOf_toNat]; omega
  | ret =>
    simp only [pcAfter]
    split
    · exact h2
    · exact (hstack ⟨s.SP.val - 1, by omega⟩).trans (by decide)
  | ldVxK =>
    simp only [pcAfter]
    split
    · omega
    · exact h2
  | _ => exact h2

/-- A handler keeps memory canonical: the two stores write inside the 4096 bytes, and nothing else writes memory. -/
theorem exec_wf {i : Instr} {s t : State} (hwf : s.mem.wf = true) (h : exec i s = .next t) : t.mem.wf = true := by
  cases hm : mayWriteMem i with
  | false => rwa [(exec_writesOnlyMarked h).mem hm]
  | true =>
    cases i with
    | ldB x =>
      obtain ⟨hlt, h'⟩ | ⟨-, h'⟩ := exec_ldB_cases x s <;> cases h'.symm.trans h
      · exact Memory.wf_writeBytes hwf hlt
      · exact hwf
    | ldMemVx x =>
      obtain ⟨hlt, h'⟩ | ⟨-, h'⟩ := exec_ldMemVx_cases x s <;> cases h'.symm.trans h
      · exact Memory.wf_writeBytes hwf (by rw [State.v0Through_length]; omega)
      · exact hwf
    | _ => cases hm

/-- A handler keeps a bound on the return addresses that `PC` meets: CALL alone writes one, and writes `PC`. -/
theorem exec_stack_le {i : Instr} {s t : State} {b : Nat} (hPC : s.PC.toNat ≤ b)
    (hstack : ∀ j : Fin 16, s.stack[j.val].toNat ≤ b) (h : exec i s = .next t) (j : Fin 16) :
    t.stack[j.val].toNat ≤ b := by
  cases hm : mayWriteStack i with
  | false => simpa only [(exec_writesOnlyMarked h).stack hm] using hstack j
  | true =>
    cases i with
    | call nnn =>
      obtain ⟨hlt, h'⟩ | ⟨-, h'⟩ := exec_call_cases nnn s <;> cases h'.symm.trans h
      · rw [State.setPC_stack, push_stack_getElem hlt j]
        split
        · exact hPC
        · exact hstack j
      · exact hstack j
    | _ => cases hm

/-- Settles O49: a halted cycle and a fetch fault write the latch at most; a handler starts with `PC` at most
`0x1000`. -/
theorem everyStepKeepsTheInvariant : Obligations.EveryStepKeepsTheInvariant := by
  intro s t hinv h
  obtain ⟨_, -, hs⟩ | ⟨-, -, hs⟩ | ⟨w, -, hf, hs⟩ := step_cases s <;> rw [hs] at h
  · cases h; exact hinv
  · cases h; exact hinv
  · obtain ⟨hwf, -, hstack⟩ := hinv
    have hPC := fetchWord_lt hf
    refine ⟨exec_wf (s := s.advance) hwf h, ?_, exec_stack_le (s := s.advance) ?_ hstack h⟩
    · rw [exec_advance_PC h]
      exact pcAfter_le hPC hstack (decode w)
    · rw [State.advance_PC, advance_PC_toNat hPC]
      omega

/-- LOAD keeps memory canonical, and writes nothing else. -/
theorem loadOp_inv (image : List Byte) {s : State} (hinv : s.Inv) : (loadOp image s).1.Inv := by
  obtain h | h := Nat.lt_or_ge 3584 image.length
  · rwa [loadOp_of_lt h]
  · rw [loadOp_of_le h]
    obtain ⟨hwf, hPC, hstack⟩ := hinv
    exact ⟨Memory.wf_writeBytes hwf (by omega), hPC, hstack⟩

/-- Every host operation keeps the invariant. -/
theorem perform_inv {op : HostOp} {s t : State} {r : Reply} (hinv : s.Inv) (h : perform op s = .next (t, r)) :
    t.Inv := by
  cases op with
  | reset => cases h; exact resetHasTheInvariant s
  | load image =>
    have ht : (loadOp image s).1 = t := congrArg Prod.fst (Host.Outcome.next.inj h)
    exact ht ▸ loadOp_inv image hinv
  | setKey | tick | fbRead => cases h; exact hinv
  | cycle =>
    obtain ⟨u, hu⟩ := step_answers s
    cases (perform_cycle_of_step hu).symm.trans h
    exact everyStepKeepsTheInvariant s t hinv hu

/-- Settles O50, by induction on the operations. -/
theorem everyRunKeepsTheInvariant : Obligations.EveryRunKeepsTheInvariant := by
  intro ops
  induction ops with
  | nil => intro s t rs hinv h; cases h; exact hinv
  | cons op ops ih =>
    intro s t rs hinv h
    obtain ⟨u, r, rs', hop, hops, -⟩ := performAll_cons_next h
    exact ih u t rs' (perform_inv hinv hop) hops

end Sys2Proof.Machine
end

section
/-!
What a program cannot observe: the sound timer (spec/47_host_operations.md R248) and the popped stack entries
(spec/10_state.md R27). A handler that writes neither `SP` nor `ST` reads neither the stack nor `ST`, so it commutes
with any change of the two.
-/

namespace Sys2Proof.Machine

open Claims

/-- `s` with another sound timer and another stack memory. -/
def State.overlay (s : State) (st : Byte) (stack : Vector Word 16) : State := { s with ST := st, stack := stack }

/-- What writes a stack entry writes `SP` too. -/
theorem mayWriteStack_of_mayWriteSP {i : Instr} (h : mayWriteSP i = false) : mayWriteStack i = false := by
  cases i with
  | call => cases h
  | _ => rfl

theorem exec_overlay {i : Instr} {s t : State} (hSP : mayWriteSP i = false) (hST : mayWriteST i = false)
    (h : exec i s = .next t) (st : Byte) (stack : Vector Word 16) :
    exec i (s.overlay st stack) = .next (t.overlay st stack) := by
  cases i with
  | ret | call => cases hSP
  | ldStVx => cases hST
  | ldVxK x =>
    cases hk : s.lowestKey with
    | none =>
      have hup := s.lowestKey_eq_none_iff.1 hk
      cases (exec_ldVxK_of_none hup x).symm.trans h
      exact exec_ldVxK_of_none (s := s.overlay st stack) hup x
    | some k =>
      cases (exec_ldVxK_of_lowest hk x).symm.trans h
      exact exec_ldVxK_of_lowest (s := s.overlay st stack) hk x
  | drw x y n =>
    obtain ⟨hin, h'⟩ | ⟨hout, h'⟩ := exec_drw_cases x y n s <;> cases h'.symm.trans h
    · exact exec_drw_of_inside (s := s.overlay st stack) hin x y
    · exact exec_drw_of_outside (s := s.overlay st stack) hout x y
  | ldB x =>
    obtain ⟨hlt, h'⟩ | ⟨hge, h'⟩ := exec_ldB_cases x s <;> cases h'.symm.trans h
    · exact exec_ldB_of_lt (s := s.overlay st stack) hlt x
    · exact exec_ldB_of_ge (s := s.overlay st stack) hge x
  | ldMemVx x =>
    obtain ⟨hlt, h'⟩ | ⟨hge, h'⟩ := exec_ldMemVx_cases x s <;> cases h'.symm.trans h
    · exact exec_ldMemVx_of_lt (s := s.overlay st stack) hlt
    · exact exec_ldMemVx_of_ge (s := s.overlay st stack) hge
  | ldVxMem x =>
    obtain ⟨hlt, h'⟩ | ⟨hge, h'⟩ := exec_ldVxMem_cases x s <;> cases h'.symm.trans h
    · exact exec_ldVxMem_of_lt (s := s.overlay st stack) hlt
    · exact exec_ldVxMem_of_ge (s := s.overlay st stack) hge
  | _ => cases h; rfl

/-! ### The sound timer -/

theorem exec_ST_unobservable {i : Instr} {s t : State} (h : exec i s = .next t) (a : Byte) :
    ∃ b, exec i { s with ST := a } = .next { t with ST := b } := by
  by_cases hi : mayWriteSP i = false ∧ mayWriteST i = false
  · obtain ⟨hSP, hST⟩ := hi
    have hstack : t.stack = s.stack := (exec_writesOnlyMarked h).stack (mayWriteStack_of_mayWriteSP hSP)
    refine ⟨a, (exec_overlay hSP hST h a s.stack).trans ?_⟩
    rw [State.overlay, ← hstack]
  · cases i with
    | ret =>
      obtain ⟨hpos, h'⟩ | ⟨hempty, h'⟩ := exec_ret_cases s <;> cases h'.symm.trans h
      · exact ⟨a, exec_ret_of_pos (s := { s with ST := a }) hpos⟩
      · exact ⟨a, exec_ret_of_empty (s := { s with ST := a }) hempty⟩
    | call nnn =>
      obtain ⟨hlt, h'⟩ | ⟨hfull, h'⟩ := exec_call_cases nnn s <;> cases h'.symm.trans h
      · exact ⟨a, exec_call_of_lt (s := { s with ST := a }) hlt nnn⟩
      · exact ⟨a, exec_call_of_full (s := { s with ST := a }) hfull nnn⟩
    | ldStVx x => cases h; exact ⟨s.getV x, rfl⟩
    | _ => exact absurd ⟨rfl, rfl⟩ hi

/-- Settles O52: neither the latch nor the fetch reads `ST`, and no handler does. -/
theorem soundTimerIsNotObservable : Obligations.SoundTimerIsNotObservable := by
  intro s t a h
  obtain ⟨c, hh, hs⟩ | ⟨hh, hf, hs⟩ | ⟨w, hh, hf, hs⟩ := step_cases s
  · cases hs.symm.trans h
    exact ⟨a, step_of_halted (s := { s with ST := a }) hh⟩
  · cases hs.symm.trans h
    exact ⟨a, step_of_fetch_fault (s := { s with ST := a }) hh hf⟩
  · obtain ⟨b, hb⟩ := exec_ST_unobservable (hs.symm.trans h) a
    exact ⟨b, (step_of_fetch (s := { s with ST := a }) hh hf).trans hb⟩

/-! ### Popped stack entries -/

/-- The two states differ at most in the stack entries at and above `SP`. -/
def AgreeBelowSP (s s' : State) : Prop :=
  s' = { s with stack := s'.stack } ∧ ∀ j : Fin 16, j.val < s.SP.val → s'.stack[j.val] = s.stack[j.val]

theorem exec_popped_unobservable {i : Instr} {s t : State} {stack : Vector Word 16}
    (hbelow : ∀ j : Fin 16, j.val < s.SP.val → stack[j.val] = s.stack[j.val]) (h : exec i s = .next t) :
    ∃ t', exec i { s with stack := stack } = .next t' ∧ AgreeBelowSP t t' := by
  by_cases hi : mayWriteSP i = false ∧ mayWriteST i = false
  · obtain ⟨hSP, hST⟩ := hi
    have hw := exec_writesOnlyMarked h
    have hstack : t.stack = s.stack := hw.stack (mayWriteStack_of_mayWriteSP hSP)
    refine ⟨_, exec_overlay hSP hST h s.ST stack, ?_, ?_⟩
    · rw [State.overlay, ← hw.ST hST]
    · rw [hw.SP hSP, hstack]
      exact hbelow
  · cases i with
    | ret =>
      obtain ⟨hpos, h'⟩ | ⟨hempty, h'⟩ := exec_ret_cases s <;> cases h'.symm.trans h
      · have htop : stack[s.SP.val - 1] = s.stack[s.SP.val - 1] := hbelow ⟨s.SP.val - 1, by omega⟩ (by simp; omega)
        refine ⟨_, exec_ret_of_pos (s := { s with stack := stack }) hpos, ?_, fun j hj => hbelow j ?_⟩
        · simp only [State.pop, htop]
        · exact Nat.lt_of_lt_of_le hj (Nat.sub_le _ 1)
      · exact ⟨_, exec_ret_of_empty (s := { s with stack := stack }) hempty, rfl, hbelow⟩
    | call nnn =>
      obtain ⟨hlt, h'⟩ | ⟨hfull, h'⟩ := exec_call_cases nnn s <;> cases h'.symm.trans h
      · refine ⟨_, exec_call_of_lt (s := { s with stack := stack }) hlt nnn, rfl, fun j hj => ?_⟩
        rw [State.setPC_stack, State.setPC_stack, push_stack_getElem hlt,
          push_stack_getElem (s := { s with stack := stack }) hlt]
        split
        · rfl
        · exact hbelow j (Nat.lt_of_le_of_ne (Nat.le_of_lt_succ hj) ‹_›)
      · exact ⟨_, exec_call_of_full (s := { s with stack := stack }) hfull nnn, rfl, hbelow⟩
    | ldStVx x => cases h; exact ⟨_, rfl, rfl, hbelow⟩
    | _ => exact absurd ⟨rfl, rfl⟩ hi

/-- Settles O53: RET reads the entry below `SP`, CALL writes the one at it, and no other handler meets the stack. -/
theorem poppedEntriesAreNotObservable : Obligations.PoppedEntriesAreNotObservable := by
  intro s s' t hs' hbelow h
  rw [hs']
  obtain ⟨c, hh, hs⟩ | ⟨hh, hf, hs⟩ | ⟨w, hh, hf, hs⟩ := step_cases s
  · cases hs.symm.trans h
    exact ⟨_, step_of_halted (s := { s with stack := s'.stack }) hh, rfl, hbelow⟩
  · cases hs.symm.trans h
    exact ⟨_, step_of_fetch_fault (s := { s with stack := s'.stack }) hh hf, rfl, hbelow⟩
  · obtain ⟨t', ht', hagree⟩ := exec_popped_unobservable (s := s.advance) hbelow (hs.symm.trans h)
    exact ⟨t', (step_of_fetch (s := { s with stack := s'.stack }) hh hf).trans ht', hagree⟩

end Sys2Proof.Machine
end

section
/-!
The end of a run (spec/70_reset_and_hazards.md R311).
-/

namespace Sys2Proof.Machine

/-- The state after the first operation and the rest of them is the state after all. -/
theorem performAll_cons_of_next {op : HostOp} {ops : List HostOp} {s t u : State} {r : Reply} {rs : List Reply}
    (h : perform op s = .next (t, r)) (h' : performAll ops t = .next (u, rs)) :
    performAll (op :: ops) s = .next (u, r :: rs) := by
  simp only [performAll, h, h']

/-- The run `ops` from `s` has its first arrival at `a` after `k` operations, in the state `t`. -/
def FirstArrival (a : Word) (ops : List HostOp) (s t : State) (k : Nat) : Prop :=
  k ≤ ops.length ∧ (∃ rs, performAll (ops.take k) s = .next (t, rs)) ∧ t.halt = none ∧ t.PC = a ∧
    ∀ j < k, ∀ u rs, performAll (ops.take j) s = .next (u, rs) → ¬(u.halt = none ∧ u.PC = a)

/-- A run that starts at the address arrives there first at once. -/
theorem firstArrival_of_arrived {a : Word} {ops : List HostOp} {s t : State} {k : Nat} (h : s.halt = none ∧ s.PC = a) :
    FirstArrival a ops s t k ↔ k = 0 ∧ t = s := by
  constructor
  · rintro ⟨-, ⟨rs, hrun⟩, -, -, hfirst⟩
    obtain rfl : k = 0 := Nat.eq_zero_of_not_pos fun hk => hfirst 0 hk s [] rfl h
    cases hrun
    exact ⟨rfl, rfl⟩
  · rintro ⟨rfl, rfl⟩
    exact ⟨Nat.zero_le _, ⟨[], rfl⟩, h.1, h.2, fun j hj => absurd hj (Nat.not_lt_zero j)⟩

theorem endOfRun_iff_of_arrived {a : Word} {ops : List HostOp} {s t : State} {k : Nat} (h : s.arrivedAt a = true) :
    endOfRun a ops s = some (k, t) ↔ FirstArrival a ops s t k := by
  rw [firstArrival_of_arrived ((s.arrivedAt_iff a).1 h), endOfRun_of_arrived h, Option.some.injEq, Prod.mk.injEq,
    eq_comm, eq_comm (a := s)]

/-- A run that does not start at the address arrives there after at least one operation. -/
theorem firstArrival_pos {a : Word} {ops : List HostOp} {s t : State} {k : Nat} (h : ¬(s.halt = none ∧ s.PC = a))
    (hfirst : FirstArrival a ops s t k) : ∃ op ops' k', ops = op :: ops' ∧ k = k' + 1 := by
  obtain ⟨hlen, ⟨rs, hrun⟩, hhalt, hPC, -⟩ := hfirst
  cases k with
  | zero => cases hrun; exact absurd ⟨hhalt, hPC⟩ h
  | succ k =>
    cases ops with
    | nil => cases hlen
    | cons op ops => exact ⟨op, ops, k, rfl, rfl⟩

/-- Where the start is not at the address, the first arrival of a run is that of its rest, one operation later. -/
theorem firstArrival_cons {a : Word} {op : HostOp} {ops : List HostOp} {s u t : State} {r : Reply} {k : Nat}
    (h : ¬(s.halt = none ∧ s.PC = a)) (hop : perform op s = .next (u, r)) :
    FirstArrival a (op :: ops) s t (k + 1) ↔ FirstArrival a ops u t k := by
  constructor
  · rintro ⟨hlen, ⟨rs, hrun⟩, hhalt, hPC, hfirst⟩
    obtain ⟨u', r', rs', hop', hrun', -⟩ := performAll_cons_next hrun
    cases hop.symm.trans hop'
    exact ⟨Nat.le_of_succ_le_succ hlen, ⟨rs', hrun'⟩, hhalt, hPC, fun j hj v vs hv =>
      hfirst (j + 1) (Nat.succ_lt_succ hj) v _ (performAll_cons_of_next hop hv)⟩
  · rintro ⟨hlen, ⟨rs, hrun⟩, hhalt, hPC, hfirst⟩
    refine ⟨Nat.succ_le_succ hlen, ⟨_, performAll_cons_of_next hop hrun⟩, hhalt, hPC, fun j hj v vs hv => ?_⟩
    cases j with
    | zero => cases hv; exact h
    | succ j =>
      obtain ⟨u', r', vs', hop', hv', -⟩ := performAll_cons_next hv
      cases hop.symm.trans hop'
      exact hfirst j (Nat.lt_of_succ_lt_succ hj) v vs' hv'

/-- Settles O55, by induction on the operations: at the address the run ends at once, and otherwise both sides go on
with the rest of the run. -/
theorem endOfRunIsTheFirstArrival : Obligations.EndOfRunIsTheFirstArrival := by
  intro a ops
  induction ops with
  | nil =>
    intro s t k
    by_cases h : s.arrivedAt a = true
    · exact endOfRun_iff_of_arrived h
    · rw [endOfRun_nil h]
      refine ⟨nofun, fun hfirst => ?_⟩
      obtain ⟨op, ops', k', hops, -⟩ := firstArrival_pos (mt (s.arrivedAt_iff a).2 h) hfirst
      cases hops
  | cons op ops ih =>
    intro s t k
    by_cases h : s.arrivedAt a = true
    · exact endOfRun_iff_of_arrived h
    · have hs := mt (s.arrivedAt_iff a).2 h
      obtain ⟨u, r, hop⟩ := everyOperationAnswers op s
      rw [endOfRun_cons h hop, Option.map_eq_some_iff]
      constructor
      · rintro ⟨⟨k', t'⟩, he, ⟨⟩⟩
        exact (firstArrival_cons hs hop).2 ((ih u t' k').1 he)
      · intro hfirst
        obtain ⟨_, _, k', -, rfl⟩ := firstArrival_pos hs hfirst
        exact ⟨(k', t), (ih u t k').2 ((firstArrival_cons hs hop).1 hfirst), rfl⟩

/-- Settles O56, by induction on the operations: the end is found before the later ones are looked at. -/
theorem laterOperationsDoNotMoveTheEnd : Obligations.LaterOperationsDoNotMoveTheEnd := by
  intro a ops later
  induction ops with
  | nil =>
    intro s e he
    by_cases h : s.arrivedAt a = true
    · rw [endOfRun_of_arrived h] at he ⊢
      exact he
    · cases (endOfRun_nil h).symm.trans he
  | cons op ops ih =>
    intro s e he
    by_cases h : s.arrivedAt a = true
    · rw [endOfRun_of_arrived h] at he ⊢
      exact he
    · obtain ⟨t, r, e', hop, he', rfl⟩ := endOfRun_cons_some h he
      rw [List.cons_append, endOfRun_cons h hop, ih t e' he']
      rfl

/-- The step at a self-jump changes nothing. -/
theorem step_of_atSelfJump {a : Imm12} {s : State} (h : s.atSelfJump a = true) : step s = .next s := by
  obtain ⟨hh, hPC, hf⟩ := (s.atSelfJump_iff a).1 h
  have hd : decode (encode (.jp a)) = .jp a := decode_encode rfl
  exact (fixedPointsAreSelfJumpsAndKeyWaits s _ hh hf).2 (.inl ⟨a, hd, by rw [hPC, addrOf_toNat]⟩)

/-- Settles O57: CYCLE is at a fixed point, FBREAD changes nothing, and SETKEY and TICK write no component that the
self-jump depends on. -/
theorem atASelfJumpOnlyTheHostChangesState : Obligations.AtASelfJumpOnlyTheHostChangesState := by
  intro a s h
  have hh : s.halt = none := ((s.atSelfJump_iff a).1 h).1
  have hcycle : perform .cycle s = .next (s, .ok) := by
    rw [perform_cycle_of_step (step_of_atSelfJump h), cycleReply_of_running hh]
  refine ⟨hcycle, fun op t r hreset hload hop => ?_⟩
  cases op with
  | reset => exact absurd rfl hreset
  | load image => exact absurd rfl (hload image)
  | setKey | tick | fbRead => cases hop; exact ⟨rfl, h⟩
  | cycle => cases hcycle.symm.trans hop; exact ⟨rfl, h⟩

/-- Settles O58: a latched condition, or else a step that answers, with the state it started from or with another. -/
theorem aRunEndsInOneOfThreeWays : Obligations.ARunEndsInOneOfThreeWays := by
  intro s
  cases hh : s.halt with
  | some c => simp [runEnd_of_halted hh]
  | none =>
    obtain ⟨t, ht⟩ := step_answers s
    rw [runEnd_of_step hh ht, ht]
    by_cases e : t = s <;> simp [e]

end Sys2Proof.Machine
end
